-- ==== Sys2Proof/Word.lean ====
section
/-! DEFINITION. The word types of the BAU: bus bytes, MMIO words, limb cells, register indices.
Spec: 00_scope.md R6, R7, R13; 10_state.md R20; 20_memory.md R60. -/

namespace Sys2Proof

/-- One byte lane of the host bus (20_memory.md R63). -/
abbrev Byte := BitVec 8

/-- One MMIO register or command word: 32 bits (20_memory.md R60, 30_encoding.md R90). -/
abbrev Word := BitVec 32

/-- One limb cell: 20 bits (10_state.md R20). -/
abbrev Limb := BitVec 20

/-- A big register index, B0 to B15 (00_scope.md R7; 30_encoding.md R91: all 16 values are valid). -/
abbrev Reg := Fin 16

end Sys2Proof
end

