-- ==== Sys2Proof/Config.lean ====
section
/-! DEFINITION. What an implementation of the BAU fixes (LMAX, MMIO_BASE, IRQ_LINE) and the constants of this hardware.
Spec: 00_scope.md R6 to R10; 10_state.md R36 to R38; 60_exceptions.md R232; 93_implementation_defined.md I1 to I3. -/

namespace Sys2Proof

/-- The limb radix R = 10^6, fixed for this hardware (00_scope.md R6; 92_eei_decisions.md D47). -/
def radix : Nat := 1000000

/-- The number of bytes of the register window (20_memory.md R60). -/
def windowBytes : Nat := 64

/-- The implementation parameters of one BAU. They never change as the machine runs; State carries them so that a claim
about every state is a claim about every implementation (log entry 1). -/
structure Config where
  /-- LMAX, the limb capacity of each big register (00_scope.md R8). -/
  lmax : Nat
  /-- MMIO_BASE, the bus address of the window (00_scope.md R10; OPEN). -/
  mmioBase : Nat
  /-- IRQ_LINE, the platform line that the IRQ output drives (60_exceptions.md R232; OPEN). -/
  irqLine : Nat
  deriving DecidableEq, Repr

/-- The default configuration: LMAX = 256 (00_scope.md R8). The spec leaves MMIO_BASE and IRQ_LINE open;
the zeros are a DESIGN CHOICE (log entry 2). -/
def Config.default : Config :=
  { lmax := 256, mmioBase := 0, irqLine := 0 }

end Sys2Proof
end

