-- ==== Sys2Proof/Machine/State.lean ====
section
/-! DEFINITION. The state of the machine, its reset, and the reasons a step can stop.
Spec: 10_state.md R20 to R48; 70_reset_and_hazards.md R260, R263; 60_exceptions.md R220, R230, R243. -/

namespace Sys2Proof.Machine

/-- The sign bit of a big register (10_state.md R20: 0 = POSITIVE, 1 = NEGATIVE). -/
inductive Sign where
  | positive
  | negative
  deriving DecidableEq, Repr

/-- A big register (10_state.md R20): sign, len in 16 bits, and the limb cells, least significant first. The list holds LMAX
cells (an invariant, `State.Inv`). -/
structure BigReg where
  sign : Sign
  len : BitVec 16
  limb : List Limb
  deriving DecidableEq, Repr

/-- The canonical zero with every limb cell 0, the reset value of every big register (10_state.md R20). -/
def BigReg.zero (lmax : Nat) : BigReg :=
  { sign := .positive, len := 0, limb := List.replicate lmax 0 }

/-- The error codes (60_exceptions.md R220). Codes 6 to 15 are reserved and never produced. -/
inductive ErrCode where
  /-- 0 NONE: no error; reset value; successful completion. -/
  | none
  /-- 1 ILLEGAL: the command word matches no row of the opcode map. -/
  | illegal
  /-- 2 OPERAND: a source big register is not well-formed. -/
  | operand
  /-- 3 OVERFLOW: the result needs more than LMAX limbs. -/
  | overflow
  /-- 4 DIVZERO: the divisor is 0. -/
  | divZero
  /-- 5 DOMAIN: the exponent of POW is negative. -/
  | domain
  deriving DecidableEq, Repr

/-- An accepted command that has not completed: its word and the 64-bit IMM captured at acceptance (10_state.md R46). -/
structure Pending where
  word : Word
  imm : BitVec 64
  deriving DecidableEq, Repr

/-- A host access on the bus (20_memory.md R62, R63). `addr` is the bus address of its first byte lane. A read says how many
bytes it covers; a write carries the byte of each lane, lowest address first. -/
inductive HostAccess where
  | read (addr : Nat) (bytes : Nat)
  | write (addr : Nat) (data : List Byte)
  deriving DecidableEq, Repr

/-- One turn in the total order of steps (20_memory.md R73; 60_exceptions.md R230). -/
inductive Turn where
  /-- The host makes its next access. -/
  | host (access : HostAccess)
  /-- The sequencer moves: it completes the pending command, if there is one. -/
  | sequencer
  /-- The platform asserts hard reset (70_reset_and_hazards.md R260). -/
  | hardReset
  deriving DecidableEq, Repr

/-- The state: everything of 10_state.md R48, the configuration, and two fields of the model's own for the world outside the
window (`agenda`, `readData`). Log entries 1, 3, 4, 5. -/
structure State where
  /-- LMAX, MMIO_BASE and IRQ_LINE; never changes. -/
  cfg : Config
  /-- B0..B15 (R20). -/
  regs : Vector BigReg 16
  /-- CMD, the last accepted command word (R30). -/
  cmd : Word
  /-- STATUS.DONE (R31). -/
  done : Bool
  /-- STATUS.ERR (R31). -/
  err : Bool
  /-- STATUS.OVR (R31). -/
  ovr : Bool
  /-- STATUS.HOSTERR (R31). -/
  hostErr : Bool
  /-- STATUS.ERRCODE (R31). -/
  errCode : ErrCode
  /-- CTRL.IE (R32). -/
  ie : Bool
  /-- RESULT (R35). -/
  result : Word
  /-- IMM_LO (R39). -/
  immLo : Word
  /-- IMM_HI (R39). -/
  immHi : Word
  /-- LREG[3:0] (R40). -/
  lreg : Reg
  /-- LIDX[15:0] (R41). -/
  lidx : BitVec 16
  /-- The pending command (R46); STATUS.BUSY = 1 exactly when there is one. -/
  pending : Option Pending
  /-- The model's own: the turns still to come, in their total order (R73, R230). -/
  agenda : List Turn
  /-- The model's own: the byte lanes of the last host read's answer, lowest address first (20_memory.md R63). -/
  readData : List Byte
  deriving DecidableEq, Repr

/-- The machine right after reset under a configuration (70_reset_and_hazards.md R260), with no turn to come. -/
def State.resetOf (cfg : Config) : State :=
  { cfg := cfg
    regs := Vector.replicate 16 (BigReg.zero cfg.lmax)
    cmd := 0
    done := false
    err := false
    ovr := false
    hostErr := false
    errCode := .none
    ie := false
    result := 0
    immLo := 0
    immHi := 0
    lreg := 0
    lidx := 0
    pending := Option.none
    agenda := []
    readData := [] }

/-- The machine right after reset in the default configuration (R260; 00_scope.md R8). -/
def State.reset : State :=
  State.resetOf Config.default

/-- The reasons a step stops with a fault. -/
inductive Fault where
  /-- Raised by the host's turn (`hostTurn`), never by a command: the access's address lies outside the 64-byte window, which
  is not the BAU's to define; the model has no step for it (60_exceptions.md R243; 93_implementation_defined.md I17: stuck).
  Safe: a claim says nothing of a run that makes one. -/
  | outsideWindow (addr : Nat)
  deriving DecidableEq, Repr

/-- The reasons a step is refused. -/
inductive Refusal where
  /-- Raised by an arm of `exec` whose instruction has no meaning yet; no arm does so in this model. Safe. -/
  | notModelled (mnemonic : String)
  deriving DecidableEq, Repr

end Sys2Proof.Machine
end

