-- ==== Sys2Proof/Machine/Operands.lean ====
section
/-! DEFINITION. Big integers as operands: the value of a register, its well-formedness, the encoding of an integer, and the
64-bit immediate. Spec: 10_state.md R20 to R24; 30_encoding.md R93; 00_scope.md R13, R15, R16. -/

namespace Sys2Proof.Machine

/-- The sign as the bit the host sees (10_state.md R20). -/
def Sign.toBit : Sign → BitVec 1
  | .positive => 0
  | .negative => 1

/-- The sign that a bit stands for (10_state.md R20). -/
def Sign.ofBit (b : BitVec 1) : Sign :=
  if b = 1 then .negative else .positive

/-- The factor that a sign stands for in a value (10_state.md R22). -/
def Sign.factor : Sign → Int
  | .positive => 1
  | .negative => -1

/-- The other sign (40_addsub.md R113: 1 − y.sign). -/
def Sign.flip : Sign → Sign
  | .positive => .negative
  | .negative => .positive

/-- The number that a limb sequence stands for, least significant limb first: Σ l_i · R^i (00_scope.md R16). -/
def magOf : List Nat → Nat
  | [] => 0
  | l :: ls => l + radix * magOf ls

/-- The limbs that take part in a register's value: limb[0..len−1] (10_state.md R22). -/
def BigReg.limbs (r : BigReg) : List Nat :=
  (r.limb.take r.len.toNat).map BitVec.toNat

/-- mag(r) (10_state.md R22). -/
def BigReg.mag (r : BigReg) : Nat :=
  magOf r.limbs

/-- val(r) (10_state.md R22). -/
def BigReg.val (r : BigReg) : Int :=
  r.sign.factor * (r.mag : Int)

/-- Limb cell i; a cell beyond the list, which no reachable state has, reads 0. -/
def BigReg.cell (r : BigReg) (i : Nat) : Limb :=
  r.limb.getD i 0

/-- WF(r), the four conditions of 10_state.md R23, in its order. -/
def BigReg.wf (lmax : Nat) (r : BigReg) : Bool :=
  decide (r.len.toNat ≤ lmax)
    && r.limbs.all (fun l => decide (l < radix))
    && (decide (r.len.toNat = 0) || decide (r.cell (r.len.toNat - 1) ≠ 0))
    && (decide (r.len.toNat ≠ 0) || decide (r.sign = .positive))

/-- The number of base-R digits of a natural number, by dividing off digits; the fuel is at least their number. -/
def digitCount : Nat → Nat → Nat
  | 0, _ => 0
  | fuel + 1, n => if n = 0 then 0 else 1 + digitCount fuel (n / radix)

/-- nlen(v), the number of base-R digits of |v| (10_state.md R24). -/
def nlen (v : Int) : Nat :=
  digitCount (Nat.log2 v.natAbs + 1) v.natAbs

/-- limb[i] = (|v| div R^i) mod R for i < LMAX (10_state.md R24); 0 from nlen(v) upwards. -/
def encLimbs (lmax : Nat) (v : Int) : List Limb :=
  (List.range lmax).map fun i => BitVec.ofNat 20 (v.natAbs / radix ^ i % radix)

/-- enc(v) in LMAX limb cells (10_state.md R24). -/
def enc (lmax : Nat) (v : Int) : BigReg :=
  { sign := if v < 0 then .negative else .positive
    len := BitVec.ofNat 16 (nlen v)
    limb := encLimbs lmax v }

/-- tdiv(a, b) = sgn(a)·sgn(b)·(|a| div |b|) (00_scope.md R15). -/
def truncDiv (a b : Int) : Int :=
  a.sign * b.sign * ((a.natAbs / b.natAbs : Nat) : Int)

/-- trem(a, b) = a − b·tdiv(a, b) (00_scope.md R15). -/
def truncRem (a b : Int) : Int :=
  a - b * truncDiv a b

/-- The integer that a captured 64-bit immediate stands for: IMM[63] ? IMM − 2^64 : IMM (30_encoding.md R93). -/
def immValue (imm : BitVec 64) : Int :=
  if imm.getLsbD 63 then (imm.toNat : Int) - 2 ^ 64 else (imm.toNat : Int)

end Sys2Proof.Machine
end

