-- ==== Sys2Proof/Machine/Flags.lean ====
section
/-! DEFINITION. The status and control words, the comparison result word and the interrupt line. The BAU has no
condition-code flags (10_state.md R33). Spec: 10_state.md R31, R32, R35, R36 to R38, R43, R46, R47; 20_memory.md R69;
60_exceptions.md R220, R232. -/

namespace Sys2Proof.Machine

/-- The number of an error code (60_exceptions.md R220). -/
def ErrCode.bits : ErrCode → BitVec 4
  | .none => 0
  | .illegal => 1
  | .operand => 2
  | .overflow => 3
  | .divZero => 4
  | .domain => 5

/-- STATUS.BUSY: 1 exactly when a command is pending (10_state.md R46). -/
def State.busy (s : State) : Bool :=
  s.pending.isSome

/-- IRQ = CTRL.IE ∧ STATUS.DONE at every instant (60_exceptions.md R232; 10_state.md R47). -/
def State.irq (s : State) : Bool :=
  s.ie && s.done

/-- The platform line that is asserted, if any: IRQ_LINE while IRQ is 1 (60_exceptions.md R232). -/
def State.assertedLine (s : State) : Option Nat :=
  if s.irq then some s.cfg.irqLine else Option.none

/-- STATUS as read: {20'b0, ERRCODE, 3'b0, HOSTERR, OVR, ERR, DONE, BUSY} (20_memory.md R69; 10_state.md R31). -/
def State.statusWord (s : State) : Word :=
  (0 : BitVec 20) ++ s.errCode.bits ++ (0 : BitVec 3) ++ BitVec.ofBool s.hostErr ++ BitVec.ofBool s.ovr
    ++ BitVec.ofBool s.err ++ BitVec.ofBool s.done ++ BitVec.ofBool s.busy

/-- A write to STATUS clears each of bits 1 to 4 that is 1 in the written word and changes nothing else
(10_state.md R31). -/
def State.clearStatus (s : State) (v : Word) : State :=
  { s with
    done := s.done && !v.getLsbD 1
    err := s.err && !v.getLsbD 2
    ovr := s.ovr && !v.getLsbD 3
    hostErr := s.hostErr && !v.getLsbD 4 }

/-- CTRL as read: {31'b0, IE}; SRST reads 0 (20_memory.md R69; 10_state.md R32). -/
def State.ctrlWord (s : State) : Word :=
  (0 : BitVec 31) ++ BitVec.ofBool s.ie

/-- RESULT after a comparison: 0xFFFF_FFFF for −1, otherwise zext_32(c) (44_compare_construct.md R200). -/
def resultWord (c : Int) : Word :=
  if c = -1 then 0xFFFFFFFF else BitVec.ofNat 32 c.toNat

/-- LMETA as read: {sign, 15'b0, len} (10_state.md R43). -/
def BigReg.metaWord (r : BigReg) : Word :=
  r.sign.toBit ++ (0 : BitVec 15) ++ r.len

/-- ID (10_state.md R36). -/
def idWord : Word := 0x42494E54

/-- PARAM: {VERSION = 0x01, NREG = 0x10, LMAX[15:0]} (10_state.md R37). -/
def paramWord (cfg : Config) : Word :=
  (0x01 : BitVec 8) ++ (0x10 : BitVec 8) ++ BitVec.ofNat 16 cfg.lmax

/-- RADIX (10_state.md R38). -/
def radixWord : Word := BitVec.ofNat 32 radix

end Sys2Proof.Machine
end

