-- ==== Sys2Proof/Machine/Ops.lean ====
section
/-! DEFINITION. The named operations on the state: register access, write-back, acceptance, the two completions of a command
(the error completion is the BAU's exception entry), reset, refusal of a host access, and the byte lanes of the bus.
Spec: 10_state.md R25; 60_exceptions.md R225 to R228, R233; 70_reset_and_hazards.md R260, R261; 20_memory.md R62, R63. -/

namespace Sys2Proof.Machine

/-- B[r] (00_scope.md R14). -/
def State.reg (s : State) (r : Reg) : BigReg :=
  s.regs.get r

/-- The state with big register r replaced. -/
def State.setReg (s : State) (r : Reg) (b : BigReg) : State :=
  { s with regs := s.regs.set r.val b r.isLt }

/-- val(B[r]). -/
def State.val (s : State) (r : Reg) : Int :=
  (s.reg r).val

/-- The check of 40_addsub.md R110 (1): every source register named is WF. The registers are checked in the order given; all
give the same code, so the order is not observable (60_exceptions.md R229). -/
def State.sourcesWf (s : State) (rs : List Reg) : Bool :=
  rs.all fun r => (s.reg r).wf s.cfg.lmax

/-- Write-back: B[d] <- v sets sign, len and every limb cell to enc(v), so the cells from len upwards become 0
(10_state.md R25). -/
def State.writeBack (s : State) (d : Reg) (v : Int) : State :=
  s.setReg d (enc s.cfg.lmax v)

/-- The status effect of a successful completion: pending <- none, DONE <- 1, ERR <- 0, ERRCODE <- 0
(60_exceptions.md R227). -/
def State.complete (s : State) : State :=
  { s with pending := Option.none, done := true, err := false, errCode := .none }

/-- Error completion, the BAU's exception entry: pending <- none, DONE <- 1, ERR <- 1, ERRCODE <- code; nothing else is
written (60_exceptions.md R228). -/
def State.raise (s : State) (code : ErrCode) : State :=
  { s with pending := Option.none, done := true, err := true, errCode := code }

/-- The end of the host's handling of a completion, in the place of a return from exception: a W1C write of STATUS that clears
DONE and ERR (60_exceptions.md R233). -/
def State.acknowledge (s : State) : State :=
  s.clearStatus 0x00000006

/-- Acceptance of a command word while idle: CMD <- w, pending <- (w, IMM as it stands), DONE, ERR and ERRCODE <- 0; OVR and
HOSTERR are not changed (60_exceptions.md R226). -/
def State.accept (s : State) (w : Word) : State :=
  { s with
    cmd := w
    pending := some { word := w, imm := s.immHi ++ s.immLo }
    done := false
    err := false
    errCode := .none }

/-- A host write to CMD: acceptance while idle, an overrun while busy, which changes nothing but OVR
(60_exceptions.md R225, R226). -/
def State.issue (s : State) (w : Word) : State :=
  if s.busy then { s with ovr := true } else s.accept w

/-- The immediate that the command being completed captured (10_state.md R46; 30_encoding.md R93). With nothing pending,
which the sequencer never completes in, it is what acceptance would capture now (log entry 9). -/
def State.capturedImm (s : State) : BitVec 64 :=
  match s.pending with
  | some p => p.imm
  | Option.none => s.immHi ++ s.immLo

/-- Reset, hard or soft: every piece of the BAU's state takes its reset value, and a command in flight is dropped with no
write-back and no DONE (70_reset_and_hazards.md R260, R261). The configuration, the turns to come and the answer of the last
read are not the BAU's state and stay. -/
def State.resetBau (s : State) : State :=
  { State.resetOf s.cfg with agenda := s.agenda, readData := s.readData }

/-- A refused host access sets HOSTERR and changes nothing else (20_memory.md R72). -/
def State.refuse (s : State) : State :=
  { s with hostErr := true }

/-- The last two steps of 40_addsub.md R110: OVERFLOW if the result needs more than LMAX limbs, otherwise the write-back and
the successful completion. -/
def State.deliver (s : State) (rd : Reg) (v : Int) : State :=
  if s.cfg.lmax < nlen v then s.raise .overflow else (s.writeBack rd v).complete

/-- The steps of 40_addsub.md R110 that ADD, SUB, MUL, DIV, MOD and POW share: the OPERAND check of the sources, then the
exact result or the error of the opcode's own checks, then the OVERFLOW check and the write-back. -/
def State.compute (s : State) (srcs : List Reg) (rd : Reg) (outcome : Except ErrCode Int) : State :=
  if s.sourcesWf srcs then
    match outcome with
    | .error code => s.raise code
    | .ok v => s.deliver rd v
  else s.raise .operand

/-- The little-endian byte lanes of a 32-bit word: lane k carries bits [8k+7:8k] (20_memory.md R63). -/
def toLanes (v : Word) : List Byte :=
  [v.extractLsb' 0 8, v.extractLsb' 8 8, v.extractLsb' 16 8, v.extractLsb' 24 8]

/-- The 32-bit word whose lanes are given, lowest address first; a lane that is missing is 0 (20_memory.md R63). -/
def ofLanes (lanes : List Byte) : Word :=
  lanes.getD 3 0 ++ lanes.getD 2 0 ++ lanes.getD 1 0 ++ lanes.getD 0 0

end Sys2Proof.Machine
end

