-- ==== Sys2Proof/Machine/HostPort.lean ====
section
/-! DEFINITION. The register window: what each host read answers and what each host write does.
Spec: 20_memory.md R60 to R72; 10_state.md R29 to R44; 60_exceptions.md R225, R226; 70_reset_and_hazards.md R261. -/

namespace Sys2Proof.Machine

/-- The registers of the window (10_state.md R29). -/
inductive MmioReg where
  | cmd
  | status
  | ctrl
  | result
  | immLo
  | immHi
  | lreg
  | lidx
  | ldata
  | lmeta
  | id
  | param
  | radix
  | reserved
  deriving DecidableEq, Repr

/-- The register at a window offset that is a multiple of 4 (10_state.md R29, R44). -/
def mmioAt (off : Nat) : MmioReg :=
  match off with
  | 0x00 => .cmd
  | 0x04 => .status
  | 0x08 => .ctrl
  | 0x0C => .result
  | 0x10 => .immLo
  | 0x14 => .immHi
  | 0x18 => .lreg
  | 0x1C => .lidx
  | 0x20 => .ldata
  | 0x24 => .lmeta
  | 0x28 => .id
  | 0x2C => .param
  | 0x30 => .radix
  | _ => .reserved

/-- An LDATA access is refused while a command is pending or with LIDX ≥ LMAX (20_memory.md R65, R66). -/
def State.ldataRefused (s : State) : Bool :=
  s.busy || decide (s.cfg.lmax ≤ s.lidx.toNat)

/-- MemRead(0x20, 4): the limb cell B[LREG].limb[LIDX], zero-extended; a refused read answers 0 and sets HOSTERR
(20_memory.md R65). -/
def readLdata (s : State) : Word × State :=
  if s.ldataRefused then (0, s.refuse)
  else (((s.reg s.lreg).cell s.lidx.toNat).setWidth 32, s)

/-- MemRead(0x24, 4): {sign, 15'b0, len} of B[LREG]; refused while a command is pending (20_memory.md R67). -/
def readLmeta (s : State) : Word × State :=
  if s.busy then (0, s.refuse) else ((s.reg s.lreg).metaWord, s)

/-- Host read dispatch (20_memory.md R69): the value answered and the state after. -/
def mmioRead (r : MmioReg) (s : State) : Word × State :=
  match r with
  | .cmd => (s.cmd, s)
  | .status => (s.statusWord, s)
  | .ctrl => (s.ctrlWord, s)
  | .result => (s.result, s)
  | .immLo => (s.immLo, s)
  | .immHi => (s.immHi, s)
  | .lreg => (BitVec.ofNat 32 s.lreg.val, s)
  | .lidx => (s.lidx.setWidth 32, s)
  | .ldata => readLdata s
  | .lmeta => readLmeta s
  | .id => (idWord, s)
  | .param => (paramWord s.cfg, s)
  | .radix => (radixWord, s)
  | .reserved => (0, s)

/-- CTRL write (10_state.md R32): refused with any of bits [31:2] set; otherwise the soft reset if bit 1 is 1, else IE takes
bit 0. -/
def writeCtrl (v : Word) (s : State) : State :=
  if v.extractLsb' 2 30 ≠ 0 then s.refuse
  else if v.getLsbD 1 then s.resetBau
  else { s with ie := v.getLsbD 0 }

/-- LREG write (10_state.md R40): refused with any of bits [31:4] set. -/
def writeLreg (v : Word) (s : State) : State :=
  if v.extractLsb' 4 28 ≠ 0 then s.refuse else { s with lreg := (v.extractLsb' 0 4).toFin }

/-- LIDX write (10_state.md R41): refused with any of bits [31:16] set; any other value is stored. -/
def writeLidx (v : Word) (s : State) : State :=
  if v.extractLsb' 16 16 ≠ 0 then s.refuse else { s with lidx := v.extractLsb' 0 16 }

/-- LDATA write (20_memory.md R66): refused while a command is pending, with LIDX ≥ LMAX, or for a value ≥ R; otherwise the
cell B[LREG].limb[LIDX] takes v[19:0]; len and sign stay. -/
def writeLdata (v : Word) (s : State) : State :=
  if s.ldataRefused then s.refuse
  else if radix ≤ v.toNat then s.refuse
  else
    let r := s.reg s.lreg
    s.setReg s.lreg { r with limb := r.limb.set s.lidx.toNat (v.extractLsb' 0 20) }

/-- LMETA write (20_memory.md R68): refused while a command is pending, with bits [30:16] not 0, or with bits [15:0] > LMAX;
otherwise sign and len of B[LREG] are written; no limb cell changes. -/
def writeLmeta (v : Word) (s : State) : State :=
  if s.busy then s.refuse
  else if v.extractLsb' 16 15 ≠ 0 then s.refuse
  else if s.cfg.lmax < (v.extractLsb' 0 16).toNat then s.refuse
  else
    s.setReg s.lreg
      { s.reg s.lreg with sign := Sign.ofBit (v.extractLsb' 31 1), len := v.extractLsb' 0 16 }

/-- Host write dispatch (20_memory.md R70). -/
def mmioWrite (r : MmioReg) (v : Word) (s : State) : State :=
  match r with
  | .cmd => s.issue v
  | .status => s.clearStatus v
  | .ctrl => writeCtrl v s
  | .result => s
  | .immLo => { s with immLo := v }
  | .immHi => { s with immHi := v }
  | .lreg => writeLreg v s
  | .lidx => writeLidx v s
  | .ldata => writeLdata v s
  | .lmeta => writeLmeta v s
  | .id => s
  | .param => s
  | .radix => s
  | .reserved => s

/-- A defined access is 32 bits wide at an offset that is a multiple of 4 (20_memory.md R62). -/
def definedAccess (off bytes : Nat) : Bool :=
  decide (bytes = 4) && decide (off % 4 = 0)

/-- A host read at a window offset: the register's value in its byte lanes; an access that is not defined is refused and reads
0 in every lane it covers (20_memory.md R62, R63). -/
def hostRead (off bytes : Nat) (s : State) : State :=
  if definedAccess off bytes then
    { (mmioRead (mmioAt off) s).2 with readData := toLanes (mmioRead (mmioAt off) s).1 }
  else { s.refuse with readData := List.replicate bytes 0 }

/-- A host write at a window offset; an access that is not defined is refused and changes nothing else (20_memory.md R62). -/
def hostWrite (off : Nat) (data : List Byte) (s : State) : State :=
  if definedAccess off data.length then mmioWrite (mmioAt off) (ofLanes data) s else s.refuse

/-- The bus address of an access. -/
def HostAccess.addr : HostAccess → Nat
  | .read addr _ => addr
  | .write addr _ => addr

/-- An access is the BAU's if the address of its first byte lies in the 64-byte window (20_memory.md R60; log entry 10). -/
def inWindow (cfg : Config) (a : HostAccess) : Bool :=
  decide (cfg.mmioBase ≤ a.addr) && decide (a.addr < cfg.mmioBase + windowBytes)

/-- The host's turn: an access to the window takes effect in one step (20_memory.md R64); an access outside it is not the
BAU's to define (60_exceptions.md R243). -/
def hostTurn (a : HostAccess) (s : State) : Host.Outcome State Fault Refusal :=
  if inWindow s.cfg a then
    match a with
    | .read addr bytes => .next (hostRead (addr - s.cfg.mmioBase) bytes s)
    | .write addr data => .next (hostWrite (addr - s.cfg.mmioBase) data s)
  else .fault (.outsideWindow a.addr)

end Sys2Proof.Machine
end

