-- ==== Sys2Proof/Syntax.lean ====
section
/-! DEFINITION. The eight commands of the BAU, one constructor per row of the opcode map (30_encoding.md R92, R94).
Register fields are indices of B0..B15; the operand order is the assembler's, destination first (R99). -/

namespace Sys2Proof

/-- A command. -/
inductive Instr where
  /-- ADD Bd, Ba, Bb (form RRR; 40_addsub.md R112). -/
  | add (rd ra rb : Reg)
  /-- SUB Bd, Ba, Bb (form RRR; 40_addsub.md R113). -/
  | sub (rd ra rb : Reg)
  /-- MUL Bd, Ba, Bb (form RRR; 41_multiply.md R130). -/
  | mul (rd ra rb : Reg)
  /-- DIV Bd, Ba, Bb (form RRR; 42_divide.md R160). -/
  | div (rd ra rb : Reg)
  /-- MOD Bd, Ba, Bb (form RRR; 42_divide.md R166). -/
  | mod (rd ra rb : Reg)
  /-- POW Bd, Ba, Be, Bm (form RRRR: base, exponent, modulus; 43_pow.md R180). -/
  | pow (rd ra rb rc : Reg)
  /-- CMP Ba, Bb (form RR: no destination register; 44_compare_construct.md R200). -/
  | cmp (ra rb : Reg)
  /-- SETI Bd (form R; 44_compare_construct.md R203). -/
  | seti (rd : Reg)
  deriving DecidableEq, Repr

/-- The source registers that the command's form names, in the order they are checked: RA, RB, RC
(30_encoding.md R92; 60_exceptions.md R222). -/
def Instr.sources : Instr → List Reg
  | .add _ ra rb => [ra, rb]
  | .sub _ ra rb => [ra, rb]
  | .mul _ ra rb => [ra, rb]
  | .div _ ra rb => [ra, rb]
  | .mod _ ra rb => [ra, rb]
  | .pow _ ra rb rc => [ra, rb, rc]
  | .cmp ra rb => [ra, rb]
  | .seti _ => []

/-- The destination register that the command's form names, if any (30_encoding.md R92). -/
def Instr.dest : Instr → Option Reg
  | .add rd _ _ => some rd
  | .sub rd _ _ => some rd
  | .mul rd _ _ => some rd
  | .div rd _ _ => some rd
  | .mod rd _ _ => some rd
  | .pow rd _ _ _ => some rd
  | .cmp _ _ => none
  | .seti rd => some rd

end Sys2Proof
end

