-- ==== Sys2Proof/WellFormed.lean ====
section
/-! DEFINITION. Well-formedness of command words (30_encoding.md R92, R96) and of configurations (00_scope.md R8, R10).

An `Instr` has register fields of type `Reg`, whose sixteen values are all valid (R91), so every `Instr` is well formed by
its type. What can be ill formed is the 32-bit word a host writes to CMD, and these checks say so from R96's own list,
independently of the decoder's match and mask table. -/

namespace Sys2Proof

/-- R96 (1), (2): OP is one of 0x01 to 0x08. -/
def Word.opAssigned (w : Word) : Bool :=
  decide (1 ≤ (w.extractLsb' 0 8).toNat) && decide ((w.extractLsb' 0 8).toNat ≤ 8)

/-- R96 (3): RSV = w[31:24] is 0. -/
def Word.reservedZero (w : Word) : Bool :=
  w.extractLsb' 24 8 == 0

/-- R96 (4) with R92: every register field that the opcode's form does not use is 0. RC is used by POW only; RB by every
form but R; RA by every form but R; RD by every form but RR. -/
def Word.unusedZero (w : Word) : Bool :=
  let rd := w.extractLsb' 8 4
  let ra := w.extractLsb' 12 4
  let rb := w.extractLsb' 16 4
  let rc := w.extractLsb' 20 4
  match (w.extractLsb' 0 8).toNat with
  | 6 => true
  | 7 => rd == 0 && rc == 0
  | 8 => ra == 0 && rb == 0 && rc == 0
  | _ => rc == 0

/-- A word is a command of the opcode map iff it is none of the illegal words of R96. -/
def Word.wellFormed (w : Word) : Bool :=
  Word.opAssigned w && Word.reservedZero w && Word.unusedZero w

/-- A configuration that the spec allows: 4 ≤ LMAX ≤ 512 (00_scope.md R8) and MMIO_BASE aligned to 64 bytes (R10). -/
def Config.wellFormed (c : Config) : Bool :=
  decide (4 ≤ c.lmax) && decide (c.lmax ≤ 512) && decide (c.mmioBase % windowBytes = 0)

end Sys2Proof
end

