-- ==== Sys2Proof/Decode.lean ====
section
/-! DEFINITION. The command decoder, the encoder and the assembler spelling.
Spec: 30_encoding.md R90 (format), R91 (fields), R94 (opcode map), R95 (decode), R96 (illegal words), R99 (syntax). -/

namespace Sys2Proof

/-- Why a word is illegal, by the four cases of R96. All four complete with ERRCODE = ILLEGAL. -/
inductive IllegalWord where
  /-- R96 (1): OP = 0x00. -/
  | opcodeZero
  /-- R96 (2): OP in 0x09..0xFF. -/
  | unassignedOpcode
  /-- R96 (3): RSV = w[31:24] is not 0. -/
  | reservedBits
  /-- R96 (4): a field that the form does not use is not 0. -/
  | unusedField
  deriving DecidableEq, Repr

/-- OP = w[7:0] (R91). -/
def fieldOp (w : Word) : BitVec 8 := w.extractLsb' 0 8

/-- RD = w[11:8] (R91). -/
def fieldRd (w : Word) : Reg := (w.extractLsb' 8 4).toFin

/-- RA = w[15:12] (R91). -/
def fieldRa (w : Word) : Reg := (w.extractLsb' 12 4).toFin

/-- RB = w[19:16] (R91). -/
def fieldRb (w : Word) : Reg := (w.extractLsb' 16 4).toFin

/-- RC = w[23:20] (R91). -/
def fieldRc (w : Word) : Reg := (w.extractLsb' 20 4).toFin

/-- RSV = w[31:24] (R91). -/
def fieldRsv (w : Word) : BitVec 8 := w.extractLsb' 24 8

/-- One row of the opcode map: match and mask as R94 lists them, and the command its fields make. -/
structure OpcodeRow where
  mnemonic : String
  pattern : Word
  mask : Word
  build : Word → Instr

/-- The opcode map (R94), in the table's order. -/
def opcodeMap : List OpcodeRow :=
  [ { mnemonic := "ADD", pattern := 0x00000001, mask := 0xFFF000FF
      build := fun w => .add (fieldRd w) (fieldRa w) (fieldRb w) },
    { mnemonic := "SUB", pattern := 0x00000002, mask := 0xFFF000FF
      build := fun w => .sub (fieldRd w) (fieldRa w) (fieldRb w) },
    { mnemonic := "MUL", pattern := 0x00000003, mask := 0xFFF000FF
      build := fun w => .mul (fieldRd w) (fieldRa w) (fieldRb w) },
    { mnemonic := "DIV", pattern := 0x00000004, mask := 0xFFF000FF
      build := fun w => .div (fieldRd w) (fieldRa w) (fieldRb w) },
    { mnemonic := "MOD", pattern := 0x00000005, mask := 0xFFF000FF
      build := fun w => .mod (fieldRd w) (fieldRa w) (fieldRb w) },
    { mnemonic := "POW", pattern := 0x00000006, mask := 0xFF0000FF
      build := fun w => .pow (fieldRd w) (fieldRa w) (fieldRb w) (fieldRc w) },
    { mnemonic := "CMP", pattern := 0x00000007, mask := 0xFFF00FFF
      build := fun w => .cmp (fieldRa w) (fieldRb w) },
    { mnemonic := "SETI", pattern := 0x00000008, mask := 0xFFFFF0FF
      build := fun w => .seti (fieldRd w) } ]

/-- A word encodes a row iff (w & mask) == match (R94). -/
def OpcodeRow.covers (row : OpcodeRow) (w : Word) : Bool :=
  w &&& row.mask == row.pattern

/-- The name of the case of R96 that makes a word illegal, the first that applies in R96's order. -/
def illegalCase (w : Word) : IllegalWord :=
  if fieldOp w = 0 then .opcodeZero
  else if 8 < (fieldOp w).toNat then .unassignedOpcode
  else if fieldRsv w ≠ 0 then .reservedBits
  else .unusedField

/-- Decode (R95): the first row that the word encodes; ILLEGAL, by name, if there is none. Reads only the word. -/
def decode (w : Word) : Except IllegalWord Instr :=
  match opcodeMap.find? (fun row => row.covers w) with
  | some row => .ok (row.build w)
  | none => .error (illegalCase w)

/-- A register index placed at bit `pos` of a word. -/
def regAt (r : Reg) (pos : Nat) : Word :=
  BitVec.ofNat 32 r.val <<< pos

/-- w = OP | RD<<8 | RA<<12 | RB<<16 | RC<<20 (R91). -/
def commandWord (op : Word) (rd ra rb rc : Reg) : Word :=
  op ||| regAt rd 8 ||| regAt ra 12 ||| regAt rb 16 ||| regAt rc 20

/-- The word of a command (R94, R99): a field that the form does not use is 0 (R92). -/
def encode : Instr → Word
  | .add rd ra rb => commandWord 0x01 rd ra rb 0
  | .sub rd ra rb => commandWord 0x02 rd ra rb 0
  | .mul rd ra rb => commandWord 0x03 rd ra rb 0
  | .div rd ra rb => commandWord 0x04 rd ra rb 0
  | .mod rd ra rb => commandWord 0x05 rd ra rb 0
  | .pow rd ra rb rc => commandWord 0x06 rd ra rb rc
  | .cmp ra rb => commandWord 0x07 0 ra rb 0
  | .seti rd => commandWord 0x08 rd 0 0 0

/-- The assembler's register names (R99). -/
def regName (r : Reg) : String :=
  ["B0", "B1", "B2", "B3", "B4", "B5", "B6", "B7", "B8", "B9", "B10", "B11", "B12", "B13", "B14", "B15"].getD r.val ""

/-- The assembler line of a command, destination first (R99). -/
def asmLine : Instr → String
  | .add rd ra rb => "ADD " ++ regName rd ++ ", " ++ regName ra ++ ", " ++ regName rb
  | .sub rd ra rb => "SUB " ++ regName rd ++ ", " ++ regName ra ++ ", " ++ regName rb
  | .mul rd ra rb => "MUL " ++ regName rd ++ ", " ++ regName ra ++ ", " ++ regName rb
  | .div rd ra rb => "DIV " ++ regName rd ++ ", " ++ regName ra ++ ", " ++ regName rb
  | .mod rd ra rb => "MOD " ++ regName rd ++ ", " ++ regName ra ++ ", " ++ regName rb
  | .pow rd ra rb rc => "POW " ++ regName rd ++ ", " ++ regName ra ++ ", " ++ regName rb ++ ", " ++ regName rc
  | .cmp ra rb => "CMP " ++ regName ra ++ ", " ++ regName rb
  | .seti rd => "SETI " ++ regName rd

/-- The command that the decoder reads from a word given as a number, bit 0 least significant; a command is one 32-bit
word (R97), so every bit above `nbits` is 0 and nothing lies above bit 31. -/
def decodeTableWord (nbits w : Nat) : Option Instr :=
  match decode (BitVec.ofNat 32 (w % 2 ^ nbits)) with
  | .ok i => some i
  | .error _ => none

end Sys2Proof
end

