-- ==== Sys2Proof/Machine/AddSub.lean ====
section
/-! DEFINITION. ADD and SUB, and the limb units of their pipeline: comparator, adder, subtractor, signed addition core.
Spec: 40_addsub.md R110 to R117. A command's meaning is the exact integer result, as R112 and R113 state it; the limb units
compute the same (R111), which is stated of them, not used by the meanings. -/

namespace Sys2Proof.Machine

/-- Compare limbs from the most significant one down, both lists given in that order (R114). -/
def cmpFromTop : List Nat → List Nat → Int
  | x :: xs, y :: ys => if x = y then cmpFromTop xs ys else if y < x then 1 else -1
  | _, _ => 0

/-- The magnitude comparator mag_cmp on normalised limb sequences (R114). -/
def magCmp (xs ys : List Nat) : Int :=
  if xs.length ≠ ys.length then (if ys.length < xs.length then 1 else -1)
  else cmpFromTop xs.reverse ys.reverse

/-- The limbs of two sequences side by side, the shorter one padded with 0 at the most-significant end (R115, R116). -/
def padPairs (xs ys : List Nat) : List (Nat × Nat) :=
  (List.range (max xs.length ys.length)).map fun i => (xs.getD i 0, ys.getD i 0)

/-- The ripple carry chain of R115 from carry `c`; a last carry of 1 becomes one more limb. -/
def addChain (c : Nat) : List (Nat × Nat) → List Nat
  | [] => if c = 1 then [1] else []
  | (x, y) :: ps => (x + y + c) % radix :: addChain ((x + y + c) / radix) ps

/-- The magnitude adder mag_add (R115). -/
def magAdd (xs ys : List Nat) : List Nat :=
  addChain 0 (padPairs xs ys)

/-- The ripple borrow chain of R116 from borrow `br`. -/
def subChain (br : Nat) : List (Nat × Nat) → List Nat
  | [] => []
  | (x, y) :: ps =>
    if x < y + br then (x + radix - (y + br)) :: subChain 1 ps
    else (x - (y + br)) :: subChain 0 ps

/-- The magnitude subtractor mag_sub, used only where |X| ≥ |Y| (R116). -/
def magSub (xs ys : List Nat) : List Nat :=
  subChain 0 (padPairs xs ys)

/-- Strip the zero limbs at the most-significant end (00_scope.md R17, 90_conflicts.md C4). -/
def stripZeros (xs : List Nat) : List Nat :=
  (xs.reverse.dropWhile fun l => l == 0).reverse

/-- Strip, and force zero POSITIVE (R111; 41_multiply.md R131). -/
def normalise (sign : Sign) (xs : List Nat) : Sign × List Nat :=
  let m := stripZeros xs
  (if m = [] then .positive else sign, m)

/-- The signed addition core sadd on the limb sequences of two operands (R111). -/
def sadd (sx : Sign) (xs : List Nat) (sy : Sign) (ys : List Nat) : Sign × List Nat :=
  if sx = sy then normalise sx (magAdd xs ys)
  else if 0 ≤ magCmp xs ys then normalise sx (magSub xs ys)
  else normalise sy (magSub ys xs)

/-- The integer that a pipeline's answer (sign, limbs) stands for (10_state.md R22). -/
def signedVal (p : Sign × List Nat) : Int :=
  p.1.factor * (magOf p.2 : Int)

/-- ADD (R112): OPERAND unless both sources are WF; v = val(B[RA]) + val(B[RB]); OVERFLOW if nlen(v) > LMAX; B[RD] <- v. -/
def execAdd (rd ra rb : Reg) (s : State) : Host.Outcome State Fault Refusal :=
  .next (s.compute [ra, rb] rd (.ok (s.val ra + s.val rb)))

/-- SUB (R113): as ADD with v = val(B[RA]) − val(B[RB]). -/
def execSub (rd ra rb : Reg) (s : State) : Host.Outcome State Fault Refusal :=
  .next (s.compute [ra, rb] rd (.ok (s.val ra - s.val rb)))

end Sys2Proof.Machine
end

