-- ==== Sys2Proof/Machine/Compare.lean ====
section
/-! DEFINITION. CMP with the signed comparator, and SETI. Spec: 44_compare_construct.md R200 to R205. -/

namespace Sys2Proof.Machine

/-- The signed comparator scmp on signs and limb sequences (R201). -/
def scmp (sx : Sign) (xs : List Nat) (sy : Sign) (ys : List Nat) : Int :=
  if sx ≠ sy then (if sx = .positive then 1 else -1)
  else if sx = .positive then magCmp xs ys
  else -magCmp xs ys

/-- CMP (R200): OPERAND unless both sources are WF, RESULT then kept; otherwise RESULT <- sgn(val(B[RA]) − val(B[RB])) and
nothing else besides the completion status. -/
def execCmp (ra rb : Reg) (s : State) : Host.Outcome State Fault Refusal :=
  .next
    (if s.sourcesWf [ra, rb] then { s with result := resultWord (s.val ra - s.val rb).sign }.complete
     else s.raise .operand)

/-- SETI (R203): B[RD] <- the captured IMM as a signed 64-bit integer; no error (R205). -/
def execSeti (rd : Reg) (s : State) : Host.Outcome State Fault Refusal :=
  .next (s.writeBack rd (immValue s.capturedImm)).complete

end Sys2Proof.Machine
end

