-- ==== Sys2Proof/Machine/Divide.lean ====
section
/-! DEFINITION. DIV and MOD and their shared pipeline: digit search, magnitude division, signs.
Spec: 42_divide.md R160 to R170; 90_conflicts.md C1: no decrement is ever applied (R165). -/

namespace Sys2Proof.Machine

/-- The binary search of R162 between `lo` and `hi`, with fuel for its probes. -/
def searchDigit (scaled rem : Nat) : Nat → Nat → Nat → Nat
  | 0, lo, _ => lo
  | fuel + 1, lo, hi =>
    if lo < hi then
      let mid := (lo + hi + 1) / 2
      if mid * scaled ≤ rem then searchDigit scaled rem fuel mid hi
      else searchDigit scaled rem fuel lo (mid - 1)
    else lo

/-- digit_search(S, rem): the largest digit d in [0, R) with d·S ≤ rem, by at most 20 probes (R162). -/
def digitSearch (scaled rem : Nat) : Nat :=
  searchDigit scaled rem 20 0 (radix - 1)

/-- The digit loop of R161 from position `i` − 1 down to 0: the quotient digits, least significant first, and the remainder. -/
def divLoop (divisor : Nat) : Nat → Nat → List Nat × Nat
  | 0, rem => ([], rem)
  | i + 1, rem =>
    let scaled := divisor * radix ^ i
    let q := digitSearch scaled rem
    let rest := divLoop divisor i (rem - q * scaled)
    (rest.1 ++ [q], rest.2)

/-- mag_divmod(X, Y) for |Y| > 0: the quotient's limbs, normalised, and the remainder (R161). -/
def magDivMod (xs ys : List Nat) : List Nat × Nat :=
  let p := divLoop (magOf ys) xs.length (magOf xs)
  (stripZeros p.1, p.2)

/-- sdivmod(x, y) for a non-zero y: quotient and remainder as integers (R164). The post-hoc correction of R165 never fires and is
left out. -/
def sdivmod (sx : Sign) (xs : List Nat) (sy : Sign) (ys : List Nat) : Int × Int :=
  let p := magDivMod xs ys
  let qs : Sign := if sx = sy then .positive else .negative
  (qs.factor * (magOf p.1 : Int), sx.factor * (p.2 : Int))

/-- DIV (R160): OPERAND unless both sources are WF; DIVZERO if val(B[RB]) = 0 (R167); B[RD] <- tdiv. -/
def execDiv (rd ra rb : Reg) (s : State) : Host.Outcome State Fault Refusal :=
  .next (s.compute [ra, rb] rd
    (if s.val rb = 0 then .error .divZero else .ok (truncDiv (s.val ra) (s.val rb))))

/-- MOD (R166): OPERAND unless both sources are WF; DIVZERO if val(B[RB]) = 0 (R167); B[RD] <- trem. -/
def execMod (rd ra rb : Reg) (s : State) : Host.Outcome State Fault Refusal :=
  .next (s.compute [ra, rb] rd
    (if s.val rb = 0 then .error .divZero else .ok (truncRem (s.val ra) (s.val rb))))

end Sys2Proof.Machine
end

