-- ==== Sys2Proof/Machine/Multiply.lean ====
section
/-! DEFINITION. MUL, its pipeline, and the convolution engine in exact arithmetic.
Spec: 41_multiply.md R130 to R147. By R139, R141 and R147 the architectural result of MUL is the exact integer product, which
is its meaning here. The pipeline's stages are functions: the transform over any commutative ring (R133, R135), the exact
coefficients (R137), the rounding (R138), the carry stage (R140), and the whole pipeline over whatever real outputs the
floating-point engine gives, which the precision contract (R139) bounds. Log entry 6. -/

namespace Sys2Proof.Machine

/-- The exponent of the least power of two that is at least n, searched upwards from k (00_scope.md R13). -/
def log2Up (n : Nat) : Nat → Nat → Nat
  | 0, k => k
  | fuel + 1, k => if n ≤ 2 ^ k then k else log2Up n fuel (k + 1)

/-- The number of recursion levels of a transform of length nextpow2(n): its binary logarithm (R133). -/
def levelsFor (n : Nat) : Nat :=
  log2Up n n 0

/-- nextpow2(n), the least 2^k with 2^k ≥ n (00_scope.md R13). -/
def nextPow2 (n : Nat) : Nat :=
  2 ^ levelsFor n

/-- N = nextpow2(2·max(la, lb)), the transform length (R132). -/
def transformLength (la lb : Nat) : Nat :=
  nextPow2 (2 * max la lb)

/-- The recursive radix-2 transform of 2^k values (R133): split into even and odd halves, recurse, combine with the powers of
`root (k+1)`, a primitive 2^(k+1)-th root of unity; each combined value is multiplied by `scale`, 1 in the forward transform
and one half in the inverse one (R135). -/
def fft {K : Type} [CommRing K] (root : Nat → K) (scale : K) : Nat → (Nat → K) → Nat → K
  | 0, a => a
  | k + 1, a =>
    let a0 := fft root scale k fun j => a (2 * j)
    let a1 := fft root scale k fun j => a (2 * j + 1)
    fun m =>
      if m < 2 ^ k then scale * (a0 m + root (k + 1) ^ m * a1 m)
      else scale * (a0 (m - 2 ^ k) - root (k + 1) ^ (m - 2 ^ k) * a1 (m - 2 ^ k))

/-- Limbs as a coefficient vector, zero-padded (R131). -/
def coeffs {K : Type} [CommRing K] (xs : List Nat) (k : Nat) : K :=
  ((xs.getD k 0 : Nat) : K)

/-- The engine in exact arithmetic: both forward transforms, the pointwise product, the inverse transform (R131, R136).
`root` gives the forward roots, `invRoot` the inverse ones (the angle's sign flipped, R134), `half` one half. -/
def exactEngine {K : Type} [CommRing K] (root invRoot : Nat → K) (half : K) (levels : Nat) (fa fb : Nat → K) : Nat → K :=
  fft invRoot half levels fun m => fft root 1 levels fa m * fft root 1 levels fb m

/-- c*[k] = Σ_{i+j=k} X[i]·Y[j], the exact linear product coefficients (R137). -/
def convCoeff (xs ys : List Nat) (k : Nat) : Nat :=
  ((List.range (k + 1)).map fun i => xs.getD i 0 * ys.getD (k - i) 0).sum

/-- Round to the nearest integer, a tie away from zero (R138). -/
def roundNearest (q : Rat) : Int :=
  if 0 ≤ q then (q + 1 / 2).floor else -((-q + 1 / 2).floor)

/-- The carry stage from carry `cr` (R140). -/
def carryStage (cr : Nat) : List Nat → List Nat
  | [] => []
  | c :: cs => (c + cr) % radix :: carryStage ((c + cr) / radix) cs

/-- The stages after the inverse transform (R131): round the N outputs, carry, sign, normalise. `engine X Y k` is the real
part of the engine's output k, a binary64 value and so a rational number. -/
def mulPipeline (engine : List Nat → List Nat → Nat → Rat) (sx : Sign) (xs : List Nat) (sy : Sign) (ys : List Nat) :
    Sign × List Nat :=
  let n := transformLength xs.length ys.length
  let c := (List.range n).map fun k => (roundNearest (engine xs ys k)).toNat
  normalise (if sx = sy then .positive else .negative) (carryStage 0 c)

/-- The precision contract (R139): for operands of at most LMAX limbs, every output differs from the exact coefficient by
less than one half. -/
def PrecisionContract (lmax : Nat) (engine : List Nat → List Nat → Nat → Rat) : Prop :=
  ∀ xs ys : List Nat, xs.length ≤ lmax → ys.length ≤ lmax → (∀ l ∈ xs, l < radix) → (∀ l ∈ ys, l < radix) →
    ∀ k < transformLength xs.length ys.length, |engine xs ys k - (convCoeff xs ys k : Rat)| < 1 / 2

/-- MUL (R130): OPERAND unless both sources are WF; v = val(B[RA]) · val(B[RB]), exact; OVERFLOW if nlen(v) > LMAX;
B[RD] <- v. -/
def execMul (rd ra rb : Reg) (s : State) : Host.Outcome State Fault Refusal :=
  .next (s.compute [ra, rb] rd (.ok (s.val ra * s.val rb)))

end Sys2Proof.Machine
end

