-- ==== Sys2Proof/Machine/Pow.lean ====
section
/-! DEFINITION. POW: the square-and-multiply control loop.
Spec: 43_pow.md R180 to R191. The meaning runs the loop of R184, which computes the closed form of R180 (R187, R190) and can be
evaluated for a large exponent, where the closed form a^e cannot. -/

namespace Sys2Proof.Machine

/-- The loop registers that change (10_state.md R45): E, ACC, BASE. MODV is constant in the loop. -/
structure PowRegs where
  e : Nat
  acc : Int
  base : Int
  deriving DecidableEq, Repr

/-- step(p) of R184: reduce by the modulus if it is not 0, otherwise OVERFLOW if p needs more than LMAX limbs. -/
def powReduce (lmax : Nat) (m p : Int) : Except ErrCode Int :=
  if m ≠ 0 then .ok (truncRem p m)
  else if lmax < nlen p then .error .overflow
  else .ok p

/-- Halve a limb sequence given from the most significant limb down, with the bit `c` carried in (R186). -/
def halveFromTop (c : Nat) : List Nat → List Nat
  | [] => []
  | l :: ls => (c * radix + l) / 2 :: halveFromTop ((c * radix + l) % 2) ls

/-- E div 2 on limbs, normalised (R186). -/
def halve (xs : List Nat) : List Nat :=
  stripZeros (halveFromTop 0 xs.reverse).reverse

/-- odd(E): the parity of limb 0 (R186). -/
def oddLimbs (xs : List Nat) : Bool :=
  xs.getD 0 0 % 2 == 1

/-- The ACC update of one pass of R184. -/
def powAcc (lmax : Nat) (m : Int) (r : PowRegs) : Except ErrCode Int :=
  if r.e % 2 = 1 then powReduce lmax m (r.acc * r.base) else .ok r.acc

/-- The BASE update of one pass of R184, behind the squaring guard of R187: E has been halved already. -/
def powBase (lmax : Nat) (m : Int) (r : PowRegs) : Except ErrCode Int :=
  if 0 < r.e / 2 then powReduce lmax m (r.base * r.base) else .ok r.base

/-- One pass of the loop (R184): ACC, then E, then BASE. -/
def powPass (lmax : Nat) (m : Int) (r : PowRegs) : Except ErrCode PowRegs :=
  match powAcc lmax m r with
  | .error code => .error code
  | .ok acc =>
    match powBase lmax m r with
    | .error code => .error code
    | .ok base => .ok { e := r.e / 2, acc := acc, base := base }

/-- The loop of R184, while E > 0, with fuel for its passes. -/
def powLoop (lmax : Nat) (m : Int) : Nat → PowRegs → Except ErrCode Int
  | 0, r => .ok r.acc
  | fuel + 1, r =>
    if r.e = 0 then .ok r.acc
    else
      match powPass lmax m r with
      | .error code => .error code
      | .ok r' => powLoop lmax m fuel r'

/-- bitlength(e), with bitlength(0) = 0: the number of passes (R188). -/
def bitLength (e : Nat) : Nat :=
  if e = 0 then 0 else Nat.log2 e + 1

/-- pow_loop(a, e, m) for e ≥ 0 (R184). -/
def powResult (lmax : Nat) (a : Int) (e : Nat) (m : Int) : Except ErrCode Int :=
  powLoop lmax m (bitLength e) { e := e, acc := 1, base := a }

/-- POW (R180): OPERAND unless the three sources are WF; DOMAIN if the exponent is negative (R181); then the loop, OVERFLOW as it
raises it; B[RD] <- v. -/
def execPow (rd ra rb rc : Reg) (s : State) : Host.Outcome State Fault Refusal :=
  .next (s.compute [ra, rb, rc] rd
    (if s.val rb < 0 then .error .domain
     else powResult s.cfg.lmax (s.val ra) (s.val rb).toNat (s.val rc)))

end Sys2Proof.Machine
end

