-- ==== Sys2Proof/Machine/Dispatch.lean ====
section
/-! DEFINITION. The meaning of each command, one arm per constructor. Spec: 30_encoding.md R94; 60_exceptions.md R227. -/

namespace Sys2Proof.Machine
open Sys2Proof

def exec (i : Instr) (s : State) : Host.Outcome State Fault Refusal :=
  match i with
  | .add rd ra rb => Sys2Proof.Machine.execAdd rd ra rb s
  | .sub rd ra rb => Sys2Proof.Machine.execSub rd ra rb s
  | .mul rd ra rb => Sys2Proof.Machine.execMul rd ra rb s
  | .div rd ra rb => Sys2Proof.Machine.execDiv rd ra rb s
  | .mod rd ra rb => Sys2Proof.Machine.execMod rd ra rb s
  | .pow rd ra rb rc => Sys2Proof.Machine.execPow rd ra rb rc s
  | .cmp ra rb => Sys2Proof.Machine.execCmp ra rb s
  | .seti rd => Sys2Proof.Machine.execSeti rd s

end Sys2Proof.Machine
end

