-- ==== Sys2Proof/Machine/Sequencer.lean ====
section
/-! DEFINITION. The sequencer's turn: decode the pending command and complete it in one atomic step.
Spec: 30_encoding.md R95; 60_exceptions.md R221, R227 to R230; 70_reset_and_hazards.md R273. -/

namespace Sys2Proof.Machine

/-- The sequencer completes the command of a word: its meaning, or the error completion ILLEGAL (60_exceptions.md R221). -/
def completeWord (w : Word) (s : State) : Host.Outcome State Fault Refusal :=
  match decode w with
  | .ok i => exec i s
  | .error _ => .next (s.raise .illegal)

/-- The sequencer's turn, enabled exactly when a command is pending (60_exceptions.md R227); an idle sequencer does nothing
(R241). -/
def sequencerTurn (s : State) : Host.Outcome State Fault Refusal :=
  match s.pending with
  | some p => completeWord p.word s
  | Option.none => .next s

end Sys2Proof.Machine
end

