-- ==== Sys2Proof/Machine/Step.lean ====
section
/-! DEFINITION. One step of the machine: the next turn of the agenda, in the one total order of 20_memory.md R73.
Spec: 20_memory.md R73; 60_exceptions.md R230, R231; 70_reset_and_hazards.md R260, R273. -/

namespace Sys2Proof.Machine

/-- One step. With no turn left to come, a pending command completes (weak fairness, 60_exceptions.md R230) and an idle machine
idles. Log entry 3. -/
def step (s : State) : Host.Outcome State Fault Refusal :=
  match s.agenda with
  | [] => sequencerTurn s
  | .sequencer :: rest => sequencerTurn { s with agenda := rest }
  | .host a :: rest => hostTurn a { s with agenda := rest }
  | .hardReset :: rest => .next { s with agenda := rest }.resetBau

/-- The state with a command word placed where the next step runs it: accepted as by a CMD write to an idle machine
(60_exceptions.md R226), with the sequencer's turn next. Log entry 8. -/
def State.withFetchWord (s : State) (nbits w : Nat) : State :=
  { s.accept (BitVec.ofNat 32 (w % 2 ^ nbits)) with agenda := .sequencer :: s.agenda }

end Sys2Proof.Machine
end

