-- ==== Sys2Proof/Machine/HostProcedures.lean ====
section
/-! DEFINITION. The host's access sequences that the spec names: loading a value, reading a register back, issuing a command and
waiting, and the pseudo-instructions. They are turns to put on the agenda; the machine itself does not know them.
Spec: 20_memory.md R78, R79; 30_encoding.md R100. "Wait" is the sequencer's turn and the poll of STATUS that sees BUSY = 0
(log entry 11). -/

namespace Sys2Proof.Machine

/-- MemWrite(off, 4, v) as a turn. -/
def writeTurn (cfg : Config) (off : Nat) (v : Word) : Turn :=
  .host (.write (cfg.mmioBase + off) (toLanes v))

/-- MemRead(off, 4) as a turn. -/
def readTurn (cfg : Config) (off : Nat) : Turn :=
  .host (.read (cfg.mmioBase + off) 4)

/-- The accesses that load limb i: LIDX <- i, LDATA <- the limb (20_memory.md R78). -/
def loadLimb (cfg : Config) (v : Int) (i : Nat) : List Turn :=
  [writeTurn cfg 0x1C (BitVec.ofNat 32 i), writeTurn cfg 0x20 (((enc cfg.lmax v).cell i).setWidth 32)]

/-- Load the value v into big register r: LREG, then each limb, then LMETA (20_memory.md R78). -/
def loadTurns (cfg : Config) (r : Reg) (v : Int) : List Turn :=
  writeTurn cfg 0x18 (BitVec.ofNat 32 r.val)
    :: ((List.range (nlen v)).flatMap (loadLimb cfg v) ++ [writeTurn cfg 0x24 (enc cfg.lmax v).metaWord])

/-- Read big register r back, given its len: LREG, LMETA, then each limb (20_memory.md R79). -/
def readBackTurns (cfg : Config) (r : Reg) (len : Nat) : List Turn :=
  writeTurn cfg 0x18 (BitVec.ofNat 32 r.val) :: readTurn cfg 0x24
    :: (List.range len).flatMap fun i => [writeTurn cfg 0x1C (BitVec.ofNat 32 i), readTurn cfg 0x20]

/-- A command mnemonic as a host macro: MemWrite(0x00, 4, word); wait (30_encoding.md R100). -/
def issueTurns (cfg : Config) (i : Instr) : List Turn :=
  [writeTurn cfg 0x00 (encode i), .sequencer, readTurn cfg 0x04]

/-- LI Bd, v: IMM_LO, IMM_HI, SETI Bd, wait (30_encoding.md R100). -/
def liTurns (cfg : Config) (d : Reg) (v : BitVec 64) : List Turn :=
  writeTurn cfg 0x10 (v.extractLsb' 0 32) :: writeTurn cfg 0x14 (v.extractLsb' 32 32) :: issueTurns cfg (.seti d)

/-- MOV Bd, Ba using Bt (30_encoding.md R100). -/
def movTurns (cfg : Config) (d a t : Reg) : List Turn :=
  liTurns cfg t 0 ++ issueTurns cfg (.add d a t)

/-- NEG Bd, Ba using Bt (30_encoding.md R100). -/
def negTurns (cfg : Config) (d a t : Reg) : List Turn :=
  liTurns cfg t 0 ++ issueTurns cfg (.sub d t a)

/-- MULMOD Bd, Ba, Bb, Bm using Bt (30_encoding.md R100). -/
def mulmodTurns (cfg : Config) (d a b m t : Reg) : List Turn :=
  issueTurns cfg (.mul t a b) ++ issueTurns cfg (.mod d t m)

end Sys2Proof.Machine
end

