-- ==== Sys2Proof/Safety.lean ====
section
/-! DEFINITION. The terms that claims about the machine use: what a command leaves, which host accesses are refused, which
runs are safe, and the invariant. Each is written out from the spec's own words, apart from the model's operations.
Spec: 10_state.md R21 to R25, R35; 20_memory.md R72; 60_exceptions.md R226 to R229. -/

namespace Sys2Proof.Machine

/-- What an error completion leaves (60_exceptions.md R228): pending, DONE, ERR and ERRCODE are written, nothing else. -/
def afterError (s : State) (code : ErrCode) : State :=
  { s with pending := Option.none, done := true, err := true, errCode := code }

/-- The register holds exactly the integer v: WF, of value v, with LMAX cells, and 0 in every cell from len upwards
(10_state.md R24, R25). -/
def BigReg.HoldsExactly (lmax : Nat) (b : BigReg) (v : Int) : Prop :=
  b.wf lmax = true ∧ b.val = v ∧ b.limb.length = lmax ∧ ∀ i, b.len.toNat ≤ i → b.cell i = 0

/-- What a command that writes v to B[rd] leaves (60_exceptions.md R227; 10_state.md R25): B[rd] holds v, every other
register is as it was, pending, DONE, ERR and ERRCODE are written, and nothing else changes. -/
def Stores (s t : State) (rd : Reg) (v : Int) : Prop :=
  t = { s with regs := t.regs, pending := Option.none, done := true, err := false, errCode := .none }
    ∧ (∀ r, r ≠ rd → t.reg r = s.reg r)
    ∧ (t.reg rd).HoldsExactly s.cfg.lmax v

/-- Big register r is well-formed. -/
def State.Wf (s : State) (r : Reg) : Prop :=
  (s.reg r).wf s.cfg.lmax = true

/-- The closed form of 43_pow.md R180 for a non-negative exponent. -/
def powValue (a : Int) (e : Nat) (m : Int) : Int :=
  if e = 0 then 1 else if m = 0 then a ^ e else (a ^ e).tmod m

/-- Limbs of a WF magnitude: every limb below R and no zero limb at the most-significant end (10_state.md R23). -/
def NormalLimbs (xs : List Nat) : Prop :=
  (∀ l ∈ xs, l < radix) ∧ xs.getLast? ≠ some 0

/-- The errors that apply to a command, in the order of 60_exceptions.md R229 (2) to (4); one code for each check that
applies, whether or not an earlier one does. -/
def applicableErrors (s : State) (i : Instr) : List ErrCode :=
  (if i.sources.all (fun r => (s.reg r).wf s.cfg.lmax) then [] else [.operand]) ++
  (match i with
   | .add _ ra rb => if s.cfg.lmax < nlen (s.val ra + s.val rb) then [.overflow] else []
   | .sub _ ra rb => if s.cfg.lmax < nlen (s.val ra - s.val rb) then [.overflow] else []
   | .mul _ ra rb => if s.cfg.lmax < nlen (s.val ra * s.val rb) then [.overflow] else []
   | .div _ _ rb => if s.val rb = 0 then [.divZero] else []
   | .mod _ _ rb => if s.val rb = 0 then [.divZero] else []
   | .pow _ ra rb rc =>
     (if s.val rb < 0 then [.domain] else [])
       ++ if s.val rc = 0 ∧ s.cfg.lmax < nlen (s.val ra ^ (s.val rb).toNat) then [.overflow] else []
   | .cmp _ _ => []
   | .seti _ => [])

/-- The host accesses that are refused (20_memory.md R72, its eight cases in order), by window offset. -/
def RefusedRead (s : State) (off bytes : Nat) : Prop :=
  (bytes ≠ 4 ∨ off % 4 ≠ 0)
    ∨ ((off = 0x20 ∨ off = 0x24) ∧ s.pending ≠ Option.none)
    ∨ (off = 0x20 ∧ s.cfg.lmax ≤ s.lidx.toNat)

/-- The refused writes of a 32-bit value (20_memory.md R72 (2) to (8)). -/
def RefusedWrite (s : State) (off : Nat) (v : Word) : Prop :=
  ((off = 0x20 ∨ off = 0x24) ∧ s.pending ≠ Option.none)
    ∨ (off = 0x20 ∧ s.cfg.lmax ≤ s.lidx.toNat)
    ∨ (off = 0x20 ∧ radix ≤ v.toNat)
    ∨ (off = 0x24 ∧ (v.toNat / 2 ^ 16 % 2 ^ 15 ≠ 0 ∨ s.cfg.lmax < v.toNat % 2 ^ 16))
    ∨ (off = 0x18 ∧ 2 ^ 4 ≤ v.toNat)
    ∨ (off = 0x1C ∧ 2 ^ 16 ≤ v.toNat)
    ∨ (off = 0x08 ∧ 4 ≤ v.toNat)

/-- A big register as every step keeps it (10_state.md R20, R21, R23 (1), (2)): LMAX cells, each below R, and len ≤ LMAX. -/
def BigReg.Ok (lmax : Nat) (b : BigReg) : Prop :=
  b.limb.length = lmax ∧ (∀ l ∈ b.limb, l.toNat < radix) ∧ b.len.toNat ≤ lmax

/-- The machine's invariant. -/
structure State.Inv (s : State) : Prop where
  /-- 4 ≤ LMAX ≤ 512 and MMIO_BASE is aligned (00_scope.md R8, R10). -/
  config : s.cfg.wellFormed = true
  /-- Every limb cell of every register is in [0, R), and every len is at most LMAX (10_state.md R20, R21). -/
  regs : ∀ r, (s.reg r).Ok s.cfg.lmax
  /-- While a command is pending, CMD holds its word, and DONE, ERR and ERRCODE read 0 (10_state.md R30; 60_exceptions.md
  R226). -/
  busy : ∀ p, s.pending = some p → s.cmd = p.word ∧ s.done = false ∧ s.err = false ∧ s.errCode = .none
  /-- ERR set means that ERRCODE names an error (60_exceptions.md R228). -/
  named : s.err = true → s.errCode ≠ .none
  /-- RESULT holds −1, 0 or +1 (10_state.md R35). -/
  result : s.result = 0xFFFFFFFF ∨ s.result = 0 ∨ s.result = 1

/-- Every access still to come goes to the window, so that no step stops (70_reset_and_hazards.md R274). -/
def State.HostInWindow (s : State) : Prop :=
  ∀ a, Turn.host a ∈ s.agenda → inWindow s.cfg a = true

/-- The state that reset leaves, field by field (70_reset_and_hazards.md R260): every register the canonical zero with every limb
cell 0, every register of the window and the status 0, no command pending, so BUSY and IRQ 0. -/
structure State.AtReset (s : State) : Prop where
  regs : ∀ r, (s.reg r).sign = .positive ∧ (s.reg r).len = 0 ∧ (s.reg r).limb = List.replicate s.cfg.lmax 0
  cmd : s.cmd = 0
  done : s.done = false
  err : s.err = false
  ovr : s.ovr = false
  hostErr : s.hostErr = false
  errCode : s.errCode = .none
  ie : s.ie = false
  result : s.result = 0
  immLo : s.immLo = 0
  immHi : s.immHi = 0
  lreg : s.lreg = 0
  lidx : s.lidx = 0
  pending : s.pending = none
  busy : s.busy = false
  irq : s.irq = false

/-- A safe run of n steps: it ends in a next state, without a fault or a refusal. -/
def SafeRun (n : Nat) (s t : State) : Prop :=
  Host.Core.run core n s = .next t

/-- The command with another destination register; CMP has none (10_state.md R26). -/
def withDest (d : Reg) : Instr → Instr
  | .add _ ra rb => .add d ra rb
  | .sub _ ra rb => .sub d ra rb
  | .mul _ ra rb => .mul d ra rb
  | .div _ ra rb => .div d ra rb
  | .mod _ ra rb => .mod d ra rb
  | .pow _ ra rb rc => .pow d ra rb rc
  | .cmp ra rb => .cmp ra rb
  | .seti _ => .seti d

end Sys2Proof.Machine
end

