-- ==== Sys2Proof/Certificates/Slice0/Obligations.lean ====
section
/-! DEFINITION. The statements about the machine, for the provers. Each docstring names the rule of spec/ it formalises, or the
sections it is derived from. -/

open Sys2Proof Sys2Proof.Machine

/-! ## Encoding -/

/-- Derived (30_encoding.md sections 1 and 2): decoding the word of a command gives the command back, every operand at every
value. -/
def Obligations.DecodeOfEncode : Prop :=
  ∀ i : Instr, decode (encode i) = .ok i

/-- Derived (30_encoding.md section 2): each word has one meaning; a word that decodes is the word of its command. -/
def Obligations.EncodeOfDecode : Prop :=
  ∀ (w : Word) (i : Instr), decode w = .ok i → encode i = w

/-- R91: the fields of a word as numbers, and a word is built from its fields. -/
def Obligations.WordIsBuiltFromFields : Prop :=
  ∀ w : Word,
    (fieldOp w).toNat = w.toNat % 2 ^ 8
      ∧ (fieldRd w).val = w.toNat / 2 ^ 8 % 2 ^ 4
      ∧ (fieldRa w).val = w.toNat / 2 ^ 12 % 2 ^ 4
      ∧ (fieldRb w).val = w.toNat / 2 ^ 16 % 2 ^ 4
      ∧ (fieldRc w).val = w.toNat / 2 ^ 20 % 2 ^ 4
      ∧ (fieldRsv w).toNat = w.toNat / 2 ^ 24
      ∧ (fieldRsv w = 0 →
          w = commandWord ((fieldOp w).setWidth 32) (fieldRd w) (fieldRa w) (fieldRb w) (fieldRc w))

/-- R96: a word is illegal iff OP is 0x00 or 0x09 to 0xFF, RSV is not 0, or a field that the form does not use is not 0; an
illegal word completes with ERR = 1 and ERRCODE = ILLEGAL. -/
def Obligations.IllegalWordsComplete : Prop :=
  ∀ w : Word,
    (w.wellFormed = true ↔ ∃ i, decode w = .ok i)
      ∧ (w.wellFormed = false → ∀ s : State, completeWord w s = .next (afterError s .illegal))

/-- Derived (30_encoding.md section 2): at most one row of the opcode map covers a word. -/
def Obligations.RowsDoNotOverlap : Prop :=
  ∀ w : Word, ∀ r₁ ∈ opcodeMap, ∀ r₂ ∈ opcodeMap,
    r₁.covers w = true → r₂.covers w = true → r₁.mnemonic = r₂.mnemonic

/-- Derived (95_test_vectors.md section 2.1): words written out from the spec decode as it says. -/
def Obligations.WrittenOutWordsDecode : Prop :=
  decode 0x00021301 = .ok (.add 3 1 2) ∧ decode 0x00021303 = .ok (.mul 3 1 2)
    ∧ decode 0x00021304 = .ok (.div 3 1 2) ∧ decode 0x00321406 = .ok (.pow 4 1 2 3)
    ∧ decode 0x00054007 = .ok (.cmp 4 5) ∧ decode 0x00000108 = .ok (.seti 1)
    ∧ decode 0x00000000 = .error .opcodeZero ∧ decode 0x00000009 = .error .unassignedOpcode
    ∧ decode 0x01000001 = .error .reservedBits ∧ decode 0x00100001 = .error .unusedField

/-! ## The step -/

/-- Derived (60_exceptions.md sections 1 and 2; 30_encoding.md section 2): when the sequencer's turn comes while a word is
pending, the step completes that word: it is the meaning of the command the word decodes to, in the state without that turn, or
the error completion ILLEGAL if the word does not decode. With no turn left to come, the sequencer moves as well (the model's
choice, log entry 3). -/
def Obligations.StepRunsDecodedCommand : Prop :=
  ∀ (s : State) (p : Pending), s.pending = some p →
    (∀ i, decode p.word = .ok i →
        (s.agenda = [] → step s = exec i s)
          ∧ (∀ rest, s.agenda = .sequencer :: rest → step s = exec i { s with agenda := rest }))
      ∧ (∀ c, decode p.word = .error c →
        (s.agenda = [] → step s = .next (afterError s .illegal))
          ∧ (∀ rest, s.agenda = .sequencer :: rest → step s = .next (afterError { s with agenda := rest } .illegal)))

/-- Derived (20_memory.md section 3; 60_exceptions.md section 2): a host turn at an address of the window is the read or write
at its offset, in the state without that turn; an idle sequencer's turn changes nothing. That an access is the window's by the
address of its first byte is the model's inference (DEDUCED, log entry 10). That an idle sequencer has a turn at all, which is then
a step that changes nothing, is the model's choice (log entry 3): the spec enables the sequencer's step only while a command is
pending. -/
def Obligations.StepTakesHostTurn : Prop :=
  ∀ (s : State) (rest : List Turn),
    (∀ addr bytes, s.agenda = .host (.read addr bytes) :: rest → inWindow s.cfg (.read addr bytes) = true →
        step s = .next (hostRead (addr - s.cfg.mmioBase) bytes { s with agenda := rest }))
      ∧ (∀ addr data, s.agenda = .host (.write addr data) :: rest → inWindow s.cfg (.write addr data) = true →
        step s = .next (hostWrite (addr - s.cfg.mmioBase) data { s with agenda := rest }))
      ∧ (s.agenda = .sequencer :: rest → s.pending = Option.none → step s = .next { s with agenda := rest })

/-- Derived (60_exceptions.md section 4, Model outcomes): the machine stops only at a host access outside the window, and there it
does stop; no command and no refused access stops it, and nothing is refused as not modelled. Which accesses are outside is
the model's inference: the address of the first byte decides (DEDUCED, log entry 10). That an idle machine with no turn left to
come idles and never stops is the model's choice (log entry 3). -/
def Obligations.StepStopsOnlyOutsideWindow : Prop :=
  ∀ s : State,
    (∀ r, step s ≠ .refused r)
      ∧ (∀ f, step s = .fault f ↔
          ∃ a rest, s.agenda = .host a :: rest ∧ inWindow s.cfg a = false ∧ f = .outsideWindow a.addr)

/-- Derived (70_reset_and_hazards.md sections 1 and 4; 60_exceptions.md section 2): no command stays pending. When every access to
come goes to the window, the machine runs through its whole agenda and one step more without a stop, and then no command is
pending. How a command left is not said: its completion step took it, or a hard or soft reset among the turns dropped it with no
write-back and no DONE. That a pending command completes when no turn is left is the model's fairness, log entry 3; that an
access goes to the window by the address of its first byte is the model's inference (DEDUCED, log entry 10). -/
def Obligations.NoCommandStaysPending : Prop :=
  ∀ s : State, s.HostInWindow →
    ∃ t, SafeRun (s.agenda.length + 1) s t ∧ t.pending = Option.none ∧ t.agenda = []

/-! ## The commands -/

/-- R112: ADD. -/
def Obligations.AddStoresSum : Prop :=
  ∀ (s : State) (rd ra rb : Reg), s.cfg.wellFormed = true →
    decode (commandWord 0x01 rd ra rb 0) = .ok (.add rd ra rb)
      ∧ (¬ (s.Wf ra ∧ s.Wf rb) → exec (.add rd ra rb) s = .next (afterError s .operand))
      ∧ (s.Wf ra → s.Wf rb → s.cfg.lmax < nlen (s.val ra + s.val rb) →
          exec (.add rd ra rb) s = .next (afterError s .overflow))
      ∧ (s.Wf ra → s.Wf rb → nlen (s.val ra + s.val rb) ≤ s.cfg.lmax →
          ∃ t, exec (.add rd ra rb) s = .next t ∧ Stores s t rd (s.val ra + s.val rb))

/-- R113: SUB. -/
def Obligations.SubStoresDifference : Prop :=
  ∀ (s : State) (rd ra rb : Reg), s.cfg.wellFormed = true →
    decode (commandWord 0x02 rd ra rb 0) = .ok (.sub rd ra rb)
      ∧ (¬ (s.Wf ra ∧ s.Wf rb) → exec (.sub rd ra rb) s = .next (afterError s .operand))
      ∧ (s.Wf ra → s.Wf rb → s.cfg.lmax < nlen (s.val ra - s.val rb) →
          exec (.sub rd ra rb) s = .next (afterError s .overflow))
      ∧ (s.Wf ra → s.Wf rb → nlen (s.val ra - s.val rb) ≤ s.cfg.lmax →
          ∃ t, exec (.sub rd ra rb) s = .next t ∧ Stores s t rd (s.val ra - s.val rb))

/-- R130: MUL, the exact product. It rests on the precision contract of R139 as the spec makes it a requirement on every
implementation (log entry 6). -/
def Obligations.MulStoresProduct : Prop :=
  ∀ (s : State) (rd ra rb : Reg), s.cfg.wellFormed = true →
    decode (commandWord 0x03 rd ra rb 0) = .ok (.mul rd ra rb)
      ∧ (¬ (s.Wf ra ∧ s.Wf rb) → exec (.mul rd ra rb) s = .next (afterError s .operand))
      ∧ (s.Wf ra → s.Wf rb → s.cfg.lmax < nlen (s.val ra * s.val rb) →
          exec (.mul rd ra rb) s = .next (afterError s .overflow))
      ∧ (s.Wf ra → s.Wf rb → nlen (s.val ra * s.val rb) ≤ s.cfg.lmax →
          ∃ t, exec (.mul rd ra rb) s = .next t ∧ Stores s t rd (s.val ra * s.val rb))

/-- R160: DIV; on WF sources with a non-zero divisor it always stores the truncated quotient. -/
def Obligations.DivStoresQuotient : Prop :=
  ∀ (s : State) (rd ra rb : Reg), s.cfg.wellFormed = true →
    decode (commandWord 0x04 rd ra rb 0) = .ok (.div rd ra rb)
      ∧ (¬ (s.Wf ra ∧ s.Wf rb) → exec (.div rd ra rb) s = .next (afterError s .operand))
      ∧ (s.Wf ra → s.Wf rb → s.val rb = 0 → exec (.div rd ra rb) s = .next (afterError s .divZero))
      ∧ (s.Wf ra → s.Wf rb → s.val rb ≠ 0 →
          ∃ t, exec (.div rd ra rb) s = .next t ∧ Stores s t rd ((s.val ra).tdiv (s.val rb)))

/-- R166: MOD; on WF sources with a non-zero divisor it always stores the remainder of the truncating division. -/
def Obligations.ModStoresRemainder : Prop :=
  ∀ (s : State) (rd ra rb : Reg), s.cfg.wellFormed = true →
    decode (commandWord 0x05 rd ra rb 0) = .ok (.mod rd ra rb)
      ∧ (¬ (s.Wf ra ∧ s.Wf rb) → exec (.mod rd ra rb) s = .next (afterError s .operand))
      ∧ (s.Wf ra → s.Wf rb → s.val rb = 0 → exec (.mod rd ra rb) s = .next (afterError s .divZero))
      ∧ (s.Wf ra → s.Wf rb → s.val rb ≠ 0 →
          ∃ t, exec (.mod rd ra rb) s = .next t ∧ Stores s t rd ((s.val ra).tmod (s.val rb)))

/-- R180, R181: POW has the architectural effect of the closed form, whatever its loop does. -/
def Obligations.PowStoresPower : Prop :=
  ∀ (s : State) (rd ra rb rc : Reg), s.cfg.wellFormed = true →
    decode (commandWord 0x06 rd ra rb rc) = .ok (.pow rd ra rb rc)
      ∧ (¬ (s.Wf ra ∧ s.Wf rb ∧ s.Wf rc) → exec (.pow rd ra rb rc) s = .next (afterError s .operand))
      ∧ (s.Wf ra → s.Wf rb → s.Wf rc → s.val rb < 0 →
          exec (.pow rd ra rb rc) s = .next (afterError s .domain))
      ∧ (s.Wf ra → s.Wf rb → s.Wf rc → 0 ≤ s.val rb →
          s.cfg.lmax < nlen (powValue (s.val ra) (s.val rb).toNat (s.val rc)) →
          exec (.pow rd ra rb rc) s = .next (afterError s .overflow))
      ∧ (s.Wf ra → s.Wf rb → s.Wf rc → 0 ≤ s.val rb →
          nlen (powValue (s.val ra) (s.val rb).toNat (s.val rc)) ≤ s.cfg.lmax →
          ∃ t, exec (.pow rd ra rb rc) s = .next t
            ∧ Stores s t rd (powValue (s.val ra) (s.val rb).toNat (s.val rc)))

/-- R200: CMP. On success RESULT and the completion status are all that changes; on error RESULT keeps its value. -/
def Obligations.CmpSetsResult : Prop :=
  ∀ (s : State) (ra rb : Reg),
    decode (commandWord 0x07 0 ra rb 0) = .ok (.cmp ra rb)
      ∧ (¬ (s.Wf ra ∧ s.Wf rb) → exec (.cmp ra rb) s = .next (afterError s .operand))
      ∧ (s.Wf ra → s.Wf rb →
          exec (.cmp ra rb) s = .next { s with
            result := if s.val ra < s.val rb then 0xFFFFFFFF else if s.val ra = s.val rb then 0 else 1
            pending := Option.none, done := true, err := false, errCode := .none })

/-- R203: SETI stores the captured IMM as a signed 64-bit integer, and has no error. -/
def Obligations.SetiStoresImmediate : Prop :=
  ∀ (s : State) (rd : Reg) (p : Pending), s.cfg.wellFormed = true → s.pending = some p →
    decode (commandWord 0x08 rd 0 0 0) = .ok (.seti rd)
      ∧ ∃ t, exec (.seti rd) s = .next t ∧ Stores s t rd p.imm.toInt

/-- R228: a command that fails writes pending, DONE, ERR and ERRCODE and nothing else: no big register, no RESULT. -/
def Obligations.FailedCommandsArePrecise : Prop :=
  ∀ (s t : State) (w : Word), completeWord w s = .next t → t.err = true →
    t.errCode ≠ .none ∧ t = afterError s t.errCode

/-- R229: exactly one code is reported, the first in the order ILLEGAL, OPERAND, DIVZERO or DOMAIN, OVERFLOW. -/
def Obligations.FirstApplicableErrorIsReported : Prop :=
  ∀ (s t : State) (w : Word), s.cfg.wellFormed = true → completeWord w s = .next t →
    (∀ c, decode w = .error c → t.errCode = .illegal)
      ∧ (∀ i, decode w = .ok i → t.errCode = ((applicableErrors s i).head?).getD .none)
      ∧ (t.err = true ↔ t.errCode ≠ .none)

/-- Derived (40_addsub.md section 1; 60_exceptions.md section 2; 10_state.md section 2): the frame of every command, succeeding or failing.
Only B[RD], RESULT of a CMP, pending, DONE, ERR and ERRCODE can change; every other register keeps every limb cell. -/
def Obligations.CommandFrame : Prop :=
  ∀ (i : Instr) (s t : State), exec i s = .next t →
    t = { s with regs := t.regs, result := t.result, pending := Option.none, done := true, err := t.err, errCode := t.errCode }
      ∧ (∀ r, i.dest ≠ some r → t.reg r = s.reg r)
      ∧ ((∀ ra rb, i ≠ .cmp ra rb) → t.result = s.result)

/-- R26: a command reads every source before it writes, so its result is the same whichever register is its destination. -/
def Obligations.AliasingDoesNotMatter : Prop :=
  ∀ (i : Instr) (d e : Reg) (s t u : State), exec (withDest d i) s = .next t → exec (withDest e i) s = .next u →
    t.err = u.err ∧ t.errCode = u.errCode ∧ t.result = u.result
      ∧ (t.err = false → (withDest d i).dest = some d → t.reg d = u.reg e)

/-- Derived (10_state.md section 1): no command makes a register ill formed: from registers all WF, it leaves registers all WF. -/
def Obligations.CommandsKeepRegistersWf : Prop :=
  ∀ (i : Instr) (s t : State), s.cfg.wellFormed = true → (∀ r, s.Wf r) → exec i s = .next t → ∀ r, t.Wf r

/-- Derived (42_divide.md section 2): the division law on the machine: a DIV and a MOD of the same operands that succeed give q and
r with q·b + r = a and |r| < |b|. -/
def Obligations.DivModLaw : Prop :=
  ∀ (s t u : State) (q r ra rb : Reg), s.cfg.wellFormed = true →
    exec (.div q ra rb) s = .next t → exec (.mod r ra rb) s = .next u → t.err = false → u.err = false →
    t.val q * s.val rb + u.val r = s.val ra ∧ |u.val r| < |s.val rb|

/-! ## Values -/

/-- Derived (10_state.md section 1): nlen(v) is the number of base-R digits of |v|. -/
def Obligations.NlenCountsDigits : Prop :=
  nlen 0 = 0 ∧ ∀ v : Int, v ≠ 0 → 1 ≤ nlen v ∧ radix ^ (nlen v - 1) ≤ v.natAbs ∧ v.natAbs < radix ^ nlen v

/-- R22: the value of a register is the signed sum of its limbs below len; cells from len upwards take no part. -/
def Obligations.ValueIsSignedLimbSum : Prop :=
  ∀ b : BigReg,
    b.mag = ∑ i ∈ Finset.range b.len.toNat, (b.cell i).toNat * radix ^ i
      ∧ b.val = (if b.sign = .negative then -1 else 1) * (b.mag : Int)
      ∧ ∀ c : BigReg, c.sign = b.sign → c.len = b.len → (∀ i < b.len.toNat, c.cell i = b.cell i) → c.val = b.val

/-- Derived (10_state.md section 1): the encoding of an integer that fits is WF and has that value, exactly. -/
def Obligations.EncodingHoldsExactly : Prop :=
  ∀ (lmax : Nat) (v : Int), lmax ≤ 512 → nlen v ≤ lmax →
    (enc lmax v).HoldsExactly lmax v ∧ (enc lmax v).len.toNat = nlen v

/-- Derived (10_state.md section 1): on WF registers the value determines sign, len and every limb below len. -/
def Obligations.WfValueDeterminesRegister : Prop :=
  ∀ (lmax : Nat) (b c : BigReg), b.wf lmax = true → c.wf lmax = true → b.val = c.val →
    b.sign = c.sign ∧ b.len = c.len ∧ ∀ i < b.len.toNat, b.cell i = c.cell i

/-! ## The pipelines -/

/-- Derived (40_addsub.md section 3): on normalised limb sequences the comparator gives the sign of the difference. -/
def Obligations.ComparatorIsSign : Prop :=
  ∀ xs ys : List Nat, NormalLimbs xs → NormalLimbs ys → magCmp xs ys = Int.sign ((magOf xs : Int) - (magOf ys : Int))

/-- Derived (40_addsub.md section 3): the adder and the subtractor are exact and give limbs below R. -/
def Obligations.RippleChainsAreExact : Prop :=
  ∀ xs ys : List Nat, (∀ l ∈ xs, l < radix) → (∀ l ∈ ys, l < radix) →
    (magOf (magAdd xs ys) = magOf xs + magOf ys ∧ ∀ l ∈ magAdd xs ys, l < radix)
      ∧ (magOf ys ≤ magOf xs →
          magOf (magSub xs ys) = magOf xs - magOf ys ∧ ∀ l ∈ magSub xs ys, l < radix)

/-- Derived (40_addsub.md section 1): the signed addition core gives the exact sum, normalised, with zero POSITIVE. -/
def Obligations.SignedAdditionIsExact : Prop :=
  ∀ (sx sy : Sign) (xs ys : List Nat), NormalLimbs xs → NormalLimbs ys →
    signedVal (sadd sx xs sy ys) = signedVal (sx, xs) + signedVal (sy, ys)
      ∧ NormalLimbs (sadd sx xs sy ys).2
      ∧ ((sadd sx xs sy ys).2 = [] → (sadd sx xs sy ys).1 = .positive)

/-- Derived (40_addsub.md section 3; 41_multiply.md section 2): the lengths of sums, differences and products. A sum or a difference
has at most one limb more than the longer operand, and no more limbs than it when the effective signs differ (the operands of
a sum of opposite signs, those of a difference of one sign, or one of them 0). -/
def Obligations.ResultLengths : Prop :=
  ∀ x y : Int,
    nlen (x + y) ≤ max (nlen x) (nlen y) + 1
      ∧ nlen (x - y) ≤ max (nlen x) (nlen y) + 1
      ∧ (x * y ≤ 0 → nlen (x + y) ≤ max (nlen x) (nlen y))
      ∧ (0 ≤ x * y → nlen (x - y) ≤ max (nlen x) (nlen y))
      ∧ (x ≠ 0 → y ≠ 0 → nlen x + nlen y - 1 ≤ nlen (x * y) ∧ nlen (x * y) ≤ nlen x + nlen y)

/-- Derived (41_multiply.md section 2): an output is rounded to the nearest integer, and a value exactly halfway between two integers
away from zero. -/
def Obligations.RoundingIsToNearest : Prop :=
  ∀ q : Rat,
    |q - (roundNearest q : Rat)| ≤ 1 / 2
      ∧ (∀ n : Int, |q - (n : Rat)| < 1 / 2 → roundNearest q = n)
      ∧ (∀ n : Int, |q - (n : Rat)| = 1 / 2 → |n| ≤ |roundNearest q|)

/-- Derived (41_multiply.md section 2): with any engine that meets the precision contract, the multiply pipeline gives the exact
product, normalised, with zero POSITIVE. -/
def Obligations.MulPipelineIsExact : Prop :=
  ∀ (lmax : Nat) (engine : List Nat → List Nat → Nat → Rat), PrecisionContract lmax engine →
    ∀ (sx sy : Sign) (xs ys : List Nat), NormalLimbs xs → NormalLimbs ys → xs.length ≤ lmax → ys.length ≤ lmax →
      signedVal (mulPipeline engine sx xs sy ys) = signedVal (sx, xs) * signedVal (sy, ys)
        ∧ NormalLimbs (mulPipeline engine sx xs sy ys).2
        ∧ ((mulPipeline engine sx xs sy ys).2 = [] → (mulPipeline engine sx xs sy ys).1 = .positive)

/-- Derived (41_multiply.md section 2): in exact arithmetic over the complex numbers the recursive transform computes the discrete
Fourier transform, and the inverse one, with its halving at every level, the inverse transform. The spec's own sentence marks
this identity as supplied from outside its source: "The equivalence of the recursion in rule R133 with the DFT (the Cooley–Tukey
radix-2 identity) and the convolution theorem are [from general knowledge, not in source]" (in rule R136). -/
def Obligations.TransformIsFourier : Prop :=
  ∀ (k : Nat) (a : Nat → ℂ) (m : Nat), m < 2 ^ k →
    fft (fun l => Complex.exp (2 * Real.pi * Complex.I / 2 ^ l)) 1 k a m
        = ∑ j ∈ Finset.range (2 ^ k), a j * Complex.exp (2 * Real.pi * Complex.I / 2 ^ k) ^ (j * m)
      ∧ fft (fun l => Complex.exp (-(2 * Real.pi * Complex.I) / 2 ^ l)) (1 / 2) k a m
        = (1 / 2 ^ k) * ∑ j ∈ Finset.range (2 ^ k), a j * Complex.exp (-(2 * Real.pi * Complex.I) / 2 ^ k) ^ (j * m)

/-- Derived (41_multiply.md section 2): in exact arithmetic the engine's outputs are the linear product coefficients, without
wrap-around, at every index of a transform of the length the pipeline chooses. The convolution theorem that it rests on is, in
the words of rule R136, "[from general knowledge, not in source]". -/
def Obligations.EngineComputesProductCoefficients : Prop :=
  ∀ (xs ys : List Nat) (m : Nat), m < transformLength xs.length ys.length →
    exactEngine (fun l => Complex.exp (2 * Real.pi * Complex.I / 2 ^ l))
        (fun l => Complex.exp (-(2 * Real.pi * Complex.I) / 2 ^ l)) (1 / 2)
        (levelsFor (2 * max xs.length ys.length)) (coeffs xs) (coeffs ys) m
      = ((convCoeff xs ys m : Nat) : ℂ)

/-- Derived (42_divide.md section 2): the digit search gives the largest digit d in [0, R) with d·S ≤ rem. -/
def Obligations.DigitSearchFindsLargest : Prop :=
  ∀ scaled rem : Nat,
    digitSearch scaled rem < radix ∧ digitSearch scaled rem * scaled ≤ rem
      ∧ ∀ d < radix, d * scaled ≤ rem → d ≤ digitSearch scaled rem

/-- Derived (42_divide.md section 2): the digit loop gives the exact quotient and remainder, and sdivmod the truncating ones. -/
def Obligations.DividePipelineIsExact : Prop :=
  ∀ (sx sy : Sign) (xs ys : List Nat), (∀ l ∈ xs, l < radix) → 0 < magOf ys →
    magOf (magDivMod xs ys).1 = magOf xs / magOf ys
      ∧ (magDivMod xs ys).2 = magOf xs % magOf ys
      ∧ NormalLimbs (magDivMod xs ys).1
      ∧ sdivmod sx xs sy ys
          = ((signedVal (sx, xs)).tdiv (signedVal (sy, ys)), (signedVal (sx, xs)).tmod (signedVal (sy, ys)))

/-- Derived (43_pow.md section 2): halving and the parity test on limbs are those of the number. -/
def Obligations.ExponentBookkeepingIsExact : Prop :=
  ∀ xs : List Nat, (∀ l ∈ xs, l < radix) →
    magOf (halve xs) = magOf xs / 2 ∧ NormalLimbs (halve xs) ∧ (oddLimbs xs = true ↔ magOf xs % 2 = 1)

/-- Derived (43_pow.md section 2): the control loop computes the closed form, and raises OVERFLOW exactly when the modulus is 0
and the power needs more than LMAX limbs. -/
def Obligations.PowLoopIsClosedForm : Prop :=
  ∀ (lmax : Nat) (a : Int) (e : Nat) (m : Int), 1 ≤ lmax →
    powResult lmax a e m =
      if m = 0 ∧ lmax < nlen (a ^ e) then .error .overflow else .ok (powValue a e m)

/-- Derived (43_pow.md section 2): a modular power is the e-fold chain of modular multiplications. -/
def Obligations.PowIsRepeatedMultiplication : Prop :=
  ∀ (lmax : Nat) (a : Int) (e : Nat) (m : Int), m ≠ 0 →
    powResult lmax a e m = .ok ((fun acc : Int => (acc * a).tmod m)^[e] 1)

/-- Derived (44_compare_construct.md section 1): on the sign and normalised limbs of WF registers the signed comparator gives the
sign of the difference of the values. -/
def Obligations.SignedComparatorIsSign : Prop :=
  ∀ (lmax : Nat) (b c : BigReg), b.wf lmax = true → c.wf lmax = true →
    scmp b.sign b.limbs c.sign c.limbs = Int.sign (b.val - c.val)

/-! ## The register window -/

/-- Derived (20_memory.md section 2): byte lane k carries bits [8k+7:8k], and the four lanes give the word back. -/
def Obligations.ByteLanesAreLittleEndian : Prop :=
  ∀ v : Word,
    (toLanes v).length = 4 ∧ ofLanes (toLanes v) = v
      ∧ ∀ k < 4, ((toLanes v).getD k 0).toNat = v.toNat / 2 ^ (8 * k) % 2 ^ 8

/-- R69, R67: the host read dispatch, with STATUS as its fields make it; LDATA and LMETA answer 0 and set HOSTERR where they are
refused. -/
def Obligations.HostReadsAnswer : Prop :=
  ∀ s : State,
    hostRead 0x00 4 s = { s with readData := toLanes s.cmd }
      ∧ hostRead 0x04 4 s = { s with readData := toLanes (BitVec.ofNat 32
          (2 ^ 8 * s.errCode.bits.toNat + 2 ^ 4 * s.hostErr.toNat + 2 ^ 3 * s.ovr.toNat + 2 ^ 2 * s.err.toNat
            + 2 * s.done.toNat + s.busy.toNat)) }
      ∧ hostRead 0x08 4 s = { s with readData := toLanes (BitVec.ofNat 32 s.ie.toNat) }
      ∧ hostRead 0x0C 4 s = { s with readData := toLanes s.result }
      ∧ hostRead 0x10 4 s = { s with readData := toLanes s.immLo }
      ∧ hostRead 0x14 4 s = { s with readData := toLanes s.immHi }
      ∧ hostRead 0x18 4 s = { s with readData := toLanes (BitVec.ofNat 32 s.lreg.val) }
      ∧ hostRead 0x1C 4 s = { s with readData := toLanes (BitVec.ofNat 32 s.lidx.toNat) }
      ∧ (s.pending = Option.none → s.lidx.toNat < s.cfg.lmax →
          hostRead 0x20 4 s
            = { s with readData := toLanes (BitVec.ofNat 32 ((s.reg s.lreg).cell s.lidx.toNat).toNat) })
      ∧ (s.pending ≠ Option.none ∨ s.cfg.lmax ≤ s.lidx.toNat →
          hostRead 0x20 4 s = { s with hostErr := true, readData := toLanes 0 })
      ∧ (s.pending = Option.none →
          hostRead 0x24 4 s = { s with readData := toLanes (BitVec.ofNat 32
            (2 ^ 31 * (s.reg s.lreg).sign.toBit.toNat + (s.reg s.lreg).len.toNat)) })
      ∧ (s.pending ≠ Option.none → hostRead 0x24 4 s = { s with hostErr := true, readData := toLanes 0 })
      ∧ hostRead 0x28 4 s = { s with readData := toLanes 0x42494E54 }
      ∧ hostRead 0x2C 4 s
          = { s with readData := toLanes (BitVec.ofNat 32 (0x01100000 + s.cfg.lmax % 2 ^ 16)) }
      ∧ hostRead 0x30 4 s = { s with readData := toLanes 0x000F4240 }
      ∧ ∀ off, off = 0x34 ∨ off = 0x38 ∨ off = 0x3C → hostRead off 4 s = { s with readData := toLanes 0 }

/-- R226: a CMD write while no command is pending accepts the word, whatever word it is, and captures IMM; IRQ falls. -/
def Obligations.CmdWriteWhileIdleIsAccepted : Prop :=
  ∀ (s t : State) (w : Word), s.pending = Option.none → hostWrite 0x00 (toLanes w) s = t →
    t = { s with
          cmd := w, pending := some { word := w, imm := s.immHi ++ s.immLo }, done := false, err := false, errCode := .none }
      ∧ t.pending.map (fun p => p.imm.toNat) = some (s.immHi.toNat * 2 ^ 32 + s.immLo.toNat)
      ∧ t.busy = true ∧ t.irq = false

/-- Derived (60_exceptions.md section 2): a CMD write while a command is pending changes nothing but OVR. -/
def Obligations.CmdWriteWhileBusySetsOverrun : Prop :=
  ∀ (s : State) (w : Word), s.pending ≠ Option.none → hostWrite 0x00 (toLanes w) s = { s with ovr := true }

/-- Derived (10_state.md section 2): a STATUS write clears each of bits 1 to 4 that is 1 in the written word and changes nothing else. -/
def Obligations.StatusWriteClearsBits : Prop :=
  ∀ (s : State) (v : Word),
    hostWrite 0x04 (toLanes v) s = { s with
      done := if v.toNat / 2 % 2 = 1 then false else s.done
      err := if v.toNat / 4 % 2 = 1 then false else s.err
      ovr := if v.toNat / 8 % 2 = 1 then false else s.ovr
      hostErr := if v.toNat / 16 % 2 = 1 then false else s.hostErr }

/-- R32, R261: a CTRL write with bits [31:2] set is ignored and sets HOSTERR; otherwise bit 1 is the soft reset, with exactly the
effect of reset, and without it IE takes bit 0. CTRL reads IE in bit 0 and 0 elsewhere. -/
def Obligations.CtrlWriteResetsOrSetsEnable : Prop :=
  ∀ (s : State) (v : Word),
    hostWrite 0x08 (toLanes v) s =
        (if 4 ≤ v.toNat then { s with hostErr := true }
        else if 2 ≤ v.toNat then { State.resetOf s.cfg with agenda := s.agenda, readData := s.readData }
        else { s with ie := decide (v.toNat = 1) })
      ∧ (hostRead 0x08 4 s).readData = toLanes (if s.ie then 1 else 0)

/-- R40, R41, R44: IMM_LO and IMM_HI take every value; LREG and LIDX take a value of 4 and of 16 bits, are reset to 0 and read back
as written, and refuse any other with HOSTERR, whether or not a command is pending; they address the port's cell, which is
refused with LIDX ≥ LMAX; a write to a read-only or a reserved register is ignored, and a reserved register reads 0, both
without HOSTERR. -/
def Obligations.PlainWindowWritesStore : Prop :=
  ∀ (s : State) (v : Word),
    hostWrite 0x10 (toLanes v) s = { s with immLo := v }
      ∧ hostWrite 0x14 (toLanes v) s = { s with immHi := v }
      ∧ (∀ r : Reg, v = BitVec.ofNat 32 r.val →
          hostWrite 0x18 (toLanes v) s = { s with lreg := r } ∧ (hostRead 0x18 4 { s with lreg := r }).readData = toLanes v)
      ∧ (2 ^ 4 ≤ v.toNat → hostWrite 0x18 (toLanes v) s = { s with hostErr := true })
      ∧ (∀ i : BitVec 16, v = BitVec.ofNat 32 i.toNat →
          hostWrite 0x1C (toLanes v) s = { s with lidx := i } ∧ (hostRead 0x1C 4 { s with lidx := i }).readData = toLanes v)
      ∧ (2 ^ 16 ≤ v.toNat → hostWrite 0x1C (toLanes v) s = { s with hostErr := true })
      ∧ (State.resetOf s.cfg).lreg = 0 ∧ (State.resetOf s.cfg).lidx = 0
      ∧ (s.pending = Option.none → s.lidx.toNat < s.cfg.lmax →
          (hostRead 0x20 4 s).readData
            = toLanes (BitVec.ofNat 32 ((s.reg s.lreg).cell s.lidx.toNat).toNat))
      ∧ (s.cfg.lmax ≤ s.lidx.toNat →
          hostWrite 0x20 (toLanes v) s = { s with hostErr := true }
            ∧ hostRead 0x20 4 s = { s with hostErr := true, readData := toLanes 0 })
      ∧ (∀ off ∈ [0x0C, 0x28, 0x2C, 0x30, 0x34, 0x38, 0x3C], hostWrite off (toLanes v) s = s)
      ∧ (∀ off ∈ [0x34, 0x38, 0x3C], hostRead off 4 s = { s with readData := toLanes 0 })

/-- R66: an LDATA write is refused while a command is pending, with LIDX ≥ LMAX or for a value ≥ R; otherwise it stores into the one
limb cell that LREG and LIDX name and changes neither sign nor len; every other cell of every register stays. -/
def Obligations.LdataWriteStoresOneCell : Prop :=
  ∀ (s t : State) (v : Word), (∀ r, (s.reg r).limb.length = s.cfg.lmax) → hostWrite 0x20 (toLanes v) s = t →
    (s.pending ≠ Option.none ∨ s.cfg.lmax ≤ s.lidx.toNat ∨ radix ≤ v.toNat → t = { s with hostErr := true })
      ∧ (s.pending = Option.none → s.lidx.toNat < s.cfg.lmax → v.toNat < radix →
          t = { s with regs := t.regs }
            ∧ ((t.reg s.lreg).cell s.lidx.toNat).toNat = v.toNat
            ∧ (∀ r i, (r ≠ s.lreg ∨ i ≠ s.lidx.toNat) → (t.reg r).cell i = (s.reg r).cell i)
            ∧ (∀ r, (t.reg r).sign = (s.reg r).sign ∧ (t.reg r).len = (s.reg r).len
                ∧ (t.reg r).limb.length = (s.reg r).limb.length))

/-- R68: an LMETA write is refused while a command is pending, with bits [30:16] not 0 or with bits [15:0] > LMAX; otherwise it sets
sign and len of B[LREG]; no limb cell changes, and then an LMETA read answers what was written, and an LDATA read the cell at
LIDX as it was before the write. -/
def Obligations.LmetaWriteSetsSignAndLen : Prop :=
  ∀ (s t : State) (v : Word), hostWrite 0x24 (toLanes v) s = t →
    (s.pending ≠ Option.none ∨ v.toNat / 2 ^ 16 % 2 ^ 15 ≠ 0 ∨ s.cfg.lmax < v.toNat % 2 ^ 16 →
        t = { s with hostErr := true })
      ∧ (s.pending = Option.none → v.toNat / 2 ^ 16 % 2 ^ 15 = 0 → v.toNat % 2 ^ 16 ≤ s.cfg.lmax →
          t = { s with regs := t.regs }
            ∧ (∀ r, r ≠ s.lreg → t.reg r = s.reg r)
            ∧ t.reg s.lreg = { s.reg s.lreg with
                sign := if 2 ^ 31 ≤ v.toNat then .negative else .positive, len := BitVec.ofNat 16 (v.toNat % 2 ^ 16) }
            ∧ (hostRead 0x24 4 t).readData = toLanes v
            ∧ (s.lidx.toNat < s.cfg.lmax →
                (hostRead 0x20 4 t).readData = toLanes (BitVec.ofNat 32 ((s.reg s.lreg).cell s.lidx.toNat).toNat)))

/-- R72: exactly the listed accesses are refused: they set HOSTERR and change nothing else (a read answers 0 in every lane), and
an access that is not refused leaves HOSTERR as it was, but for a STATUS write and the soft reset, which may clear it; a command
leaves it as it was. -/
def Obligations.RefusedAccessesSetHosterr : Prop :=
  ∀ (s : State) (off : Nat), off < 64 →
    (∀ bytes, RefusedRead s off bytes →
        hostRead off bytes s = { s with hostErr := true, readData := List.replicate bytes 0 })
      ∧ (∀ bytes, ¬ RefusedRead s off bytes → (hostRead off bytes s).hostErr = s.hostErr)
      ∧ (∀ data, (data.length ≠ 4 ∨ off % 4 ≠ 0) → hostWrite off data s = { s with hostErr := true })
      ∧ (∀ v, off % 4 = 0 → RefusedWrite s off v → hostWrite off (toLanes v) s = { s with hostErr := true })
      ∧ (∀ v, off % 4 = 0 → ¬ RefusedWrite s off v → off ≠ 0x04 → ¬ (off = 0x08 ∧ 2 ≤ v.toNat) →
          (hostWrite off (toLanes v) s).hostErr = s.hostErr)
      ∧ (∀ w t, completeWord w s = .next t → t.hostErr = s.hostErr)

/-- Derived (20_memory.md section 3): a host read changes nothing but its answer and, exactly when it is refused, HOSTERR; the same
read again answers the same, if nothing came between; and a repeated write to IMM_LO, IMM_HI, LREG, LIDX, LDATA or LMETA has the
effect of the first. -/
def Obligations.ReadsAndRepeatedWritesAreHarmless : Prop :=
  ∀ (s : State) (off : Nat), off < 64 →
    (∀ bytes, hostRead off bytes s
          = { s with hostErr := (hostRead off bytes s).hostErr, readData := (hostRead off bytes s).readData }
        ∧ (RefusedRead s off bytes → (hostRead off bytes s).hostErr = true)
        ∧ (¬ RefusedRead s off bytes → (hostRead off bytes s).hostErr = s.hostErr)
        ∧ hostRead off bytes (hostRead off bytes s) = hostRead off bytes s)
      ∧ (∀ v, 0x10 ≤ off → off ≤ 0x24 →
          hostWrite off (toLanes v) (hostWrite off (toLanes v) s) = hostWrite off (toLanes v) s)

/-- Derived (20_memory.md sections 3 and 4; 60_exceptions.md section 2; 10_state.md section 2): while a command is pending, no host
access but the soft reset changes the command, the big registers, RESULT, CMD, DONE, ERR or ERRCODE; the soft reset is a CTRL
write of 2 or 3 and leaves the reset state. -/
def Obligations.PendingCommandLocksTheMachine : Prop :=
  ∀ (s t : State) (p : Pending) (a : HostAccess), s.Inv → s.pending = some p → hostTurn a s = .next t →
    (∃ v : Word, (v = 2 ∨ v = 3) ∧ a = .write (s.cfg.mmioBase + 0x08) (toLanes v)
        ∧ t = { State.resetOf s.cfg with agenda := s.agenda, readData := s.readData })
      ∨ (t.pending = some p ∧ t.regs = s.regs ∧ t.result = s.result ∧ t.cmd = s.cmd
          ∧ t.done = s.done ∧ t.err = s.err ∧ t.errCode = s.errCode)

/-- Derived (60_exceptions.md section 2; 70_reset_and_hazards.md section 3): the host cannot tell when a command completed by what it
writes meanwhile: a write to IMM_LO, IMM_HI, LREG or LIDX before the completion step or after it leaves the same state. -/
def Obligations.HostWritesCommuteWithCompletion : Prop :=
  ∀ (s t : State) (p : Pending) (off : Nat) (v : Word), s.pending = some p →
    off = 0x10 ∨ off = 0x14 ∨ off = 0x18 ∨ off = 0x1C →
    sequencerTurn s = .next t → sequencerTurn (hostWrite off (toLanes v) s) = .next (hostWrite off (toLanes v) t)

/-- Derived (20_memory.md section 5): the accesses of the load procedure, taken in turn on an idle machine with sound registers, leave
B[r] holding v, every other register and RESULT, CMD and the status as they were, and none of them is refused. -/
def Obligations.LoadProcedureStoresValue : Prop :=
  ∀ (s : State) (r : Reg) (v : Int) (rest : List Turn), s.Inv → s.pending = Option.none → nlen v ≤ s.cfg.lmax →
    s.agenda = loadTurns s.cfg r v ++ rest →
    ∃ t, SafeRun (loadTurns s.cfg r v).length s t
      ∧ (t.reg r).wf s.cfg.lmax = true ∧ (t.reg r).val = v
      ∧ (∀ r', r' ≠ r → t.reg r' = s.reg r')
      ∧ t = { s with regs := t.regs, lreg := t.lreg, lidx := t.lidx, agenda := rest }

/-! ## Reset, interrupt, invariant -/

/-- R260: what reset leaves. A hard reset in any state, a command in flight or not, gives the reset state in one step; a command
that was pending is dropped, so the registers are zero and DONE is 0; the reset state itself is as R260 lists it. -/
def Obligations.HardResetLeavesResetState : Prop :=
  State.reset.AtReset
    ∧ (∀ cfg : Config, (State.resetOf cfg).AtReset)
    ∧ ∀ (s : State) (rest : List Turn), s.agenda = .hardReset :: rest →
        ∃ t, step s = .next t ∧ t.AtReset ∧ t.cfg = s.cfg ∧ t.agenda = rest

/-- Derived (60_exceptions.md section 3): IRQ is CTRL.IE ∧ STATUS.DONE; a step raises it only by completing a
command or by setting IE while DONE is 1. -/
def Obligations.IrqRisesOnlyOnCompletionOrEnable : Prop :=
  ∀ s t : State,
    (s.irq = true ↔ s.ie = true ∧ s.done = true)
      ∧ (step s = .next t → s.irq = false → t.irq = true →
          (s.pending ≠ Option.none ∧ t.pending = Option.none ∧ s.ie = true ∧ s.done = false)
            ∨ (s.ie = false ∧ t.ie = true ∧ s.done = true ∧ ∃ data rest,
                s.agenda = .host (.write (s.cfg.mmioBase + 0x08) data) :: rest))

/-- Derived (10_state.md sections 1 and 2; 70_reset_and_hazards.md section 1): the invariant holds at reset, in every configuration that the
spec allows. -/
def Obligations.InvariantAtReset : Prop :=
  State.reset.Inv ∧ ∀ cfg : Config, cfg.wellFormed = true → (State.resetOf cfg).Inv

/-- Derived (10_state.md sections 1 and 2): every step keeps the invariant: every limb cell stays in [0, R) and every len at most
LMAX; a pending command's word stays in CMD with DONE, ERR and ERRCODE 0; ERR comes with a named code; RESULT stays −1, 0 or
+1; the configuration stays legal. -/
def Obligations.StepKeepsInvariant : Prop :=
  ∀ s t : State, s.Inv → step s = .next t → t.Inv
end

