-- ==== Sys2Proof/Laws/Encoding.lean ====
section
/-! SUPPORT. Command words and their fields (30_encoding.md R90 to R96): a word is the concatenation of its fields, a row of the
opcode map covers a word exactly when the fields say so, and a command word has the fields it was built from. -/

namespace Sys2Proof

/-- A word is the concatenation of its fields, RSV most significant (R90). -/
theorem word_eq_append (w : Word) :
    w = w.extractLsb' 24 8 ++ w.extractLsb' 20 4 ++ w.extractLsb' 16 4 ++ w.extractLsb' 12 4 ++ w.extractLsb' 8 4
      ++ w.extractLsb' 0 8 := by
  apply BitVec.eq_of_getLsbD_eq
  intro i hi
  simp only [BitVec.getLsbD_append, BitVec.getLsbD_extractLsb']
  grind

/-- Two concatenations of fields are equal exactly when the fields are. -/
theorem append_fields_inj (a a' : BitVec 8) (b b' c c' d d' e e' : BitVec 4) (f f' : BitVec 8) :
    a ++ b ++ c ++ d ++ e ++ f = a' ++ b' ++ c' ++ d' ++ e' ++ f'
      ↔ a = a' ∧ b = b' ∧ c = c' ∧ d = d' ∧ e = e' ∧ f = f' := by
  constructor
  · intro h
    have g : ∀ k n, (a ++ b ++ c ++ d ++ e ++ f).extractLsb' k n = (a' ++ b' ++ c' ++ d' ++ e' ++ f').extractLsb' k n := by
      intro k n
      rw [h]
    refine ⟨?_, ?_, ?_, ?_, ?_, ?_⟩ <;> apply BitVec.eq_of_getLsbD_eq <;> intro i hi
    · have := congrArg (fun x => x.getLsbD i) (g 24 8)
      simp only [BitVec.getLsbD_append, BitVec.getLsbD_extractLsb'] at this
      grind
    · have := congrArg (fun x => x.getLsbD i) (g 20 4)
      simp only [BitVec.getLsbD_append, BitVec.getLsbD_extractLsb'] at this
      grind
    · have := congrArg (fun x => x.getLsbD i) (g 16 4)
      simp only [BitVec.getLsbD_append, BitVec.getLsbD_extractLsb'] at this
      grind
    · have := congrArg (fun x => x.getLsbD i) (g 12 4)
      simp only [BitVec.getLsbD_append, BitVec.getLsbD_extractLsb'] at this
      grind
    · have := congrArg (fun x => x.getLsbD i) (g 8 4)
      simp only [BitVec.getLsbD_append, BitVec.getLsbD_extractLsb'] at this
      grind
    · have := congrArg (fun x => x.getLsbD i) (g 0 8)
      simp only [BitVec.getLsbD_append, BitVec.getLsbD_extractLsb'] at this
      grind
  · rintro ⟨rfl, rfl, rfl, rfl, rfl, rfl⟩
    rfl

/-- Masking a concatenation masks its fields. -/
theorem append_fields_and (a a' : BitVec 8) (b b' c c' d d' e e' : BitVec 4) (f f' : BitVec 8) :
    (a ++ b ++ c ++ d ++ e ++ f) &&& (a' ++ b' ++ c' ++ d' ++ e' ++ f')
      = (a &&& a') ++ (b &&& b') ++ (c &&& c') ++ (d &&& d') ++ (e &&& e') ++ (f &&& f') := by
  apply BitVec.eq_of_getLsbD_eq
  intro i hi
  simp only [BitVec.getLsbD_append, BitVec.getLsbD_and]
  grind

/-- A match and mask test, both given by their fields, is a test of the fields. -/
theorem masked_eq_iff (w : Word) (a a' : BitVec 8) (b b' c c' d d' e e' : BitVec 4) (f f' : BitVec 8) :
    w &&& (a ++ b ++ c ++ d ++ e ++ f) = a' ++ b' ++ c' ++ d' ++ e' ++ f'
      ↔ w.extractLsb' 24 8 &&& a = a' ∧ w.extractLsb' 20 4 &&& b = b' ∧ w.extractLsb' 16 4 &&& c = c'
        ∧ w.extractLsb' 12 4 &&& d = d' ∧ w.extractLsb' 8 4 &&& e = e' ∧ w.extractLsb' 0 8 &&& f = f' := by
  conv_lhs => rw [word_eq_append w]
  rw [append_fields_and, append_fields_inj]

/-- An opcode widened to a word, by fields. -/
theorem setWidth_eq_append (k : BitVec 8) :
    k.setWidth 32 = (0 : BitVec 8) ++ (0 : BitVec 4) ++ (0 : BitVec 4) ++ (0 : BitVec 4) ++ (0 : BitVec 4) ++ k := by
  apply BitVec.eq_of_getLsbD_eq
  intro i hi
  simp only [BitVec.getLsbD_append, BitVec.getLsbD_setWidth]
  grind

theorem and_ones8 : ∀ x : BitVec 8, x &&& 0xFF#8 = x := by decide

theorem and_ones4 : ∀ x : BitVec 4, x &&& 0xF#4 = x := by decide

/-- The RRR rows' test (R94): mask 0xFFF000FF. -/
theorem mask_rrr (w : Word) (k : BitVec 8) :
    w &&& 0xFFF000FF#32 = k.setWidth 32
      ↔ w.extractLsb' 24 8 = 0#8 ∧ w.extractLsb' 20 4 = 0#4 ∧ w.extractLsb' 0 8 = k := by
  have h := masked_eq_iff w 0xFF 0 0xF 0 0 0 0 0 0 0 0xFF k
  have hm : 0xFFF000FF#32 = (0xFF : BitVec 8) ++ (0xF : BitVec 4) ++ (0 : BitVec 4) ++ (0 : BitVec 4) ++ (0 : BitVec 4)
      ++ (0xFF : BitVec 8) := by decide
  rw [hm, setWidth_eq_append, h]
  simp [and_ones8, and_ones4]

/-- The RRRR row's test (R94): mask 0xFF0000FF. -/
theorem mask_rrrr (w : Word) (k : BitVec 8) :
    w &&& 0xFF0000FF#32 = k.setWidth 32 ↔ w.extractLsb' 24 8 = 0#8 ∧ w.extractLsb' 0 8 = k := by
  have h := masked_eq_iff w 0xFF 0 0 0 0 0 0 0 0 0 0xFF k
  have hm : 0xFF0000FF#32 = (0xFF : BitVec 8) ++ (0 : BitVec 4) ++ (0 : BitVec 4) ++ (0 : BitVec 4) ++ (0 : BitVec 4)
      ++ (0xFF : BitVec 8) := by decide
  rw [hm, setWidth_eq_append, h]
  simp [and_ones8]

/-- The RR row's test (R94): mask 0xFFF00FFF. -/
theorem mask_rr (w : Word) (k : BitVec 8) :
    w &&& 0xFFF00FFF#32 = k.setWidth 32
      ↔ w.extractLsb' 24 8 = 0#8 ∧ w.extractLsb' 20 4 = 0#4 ∧ w.extractLsb' 8 4 = 0#4 ∧ w.extractLsb' 0 8 = k := by
  have h := masked_eq_iff w 0xFF 0 0xF 0 0 0 0 0 0xF 0 0xFF k
  have hm : 0xFFF00FFF#32 = (0xFF : BitVec 8) ++ (0xF : BitVec 4) ++ (0 : BitVec 4) ++ (0 : BitVec 4) ++ (0xF : BitVec 4)
      ++ (0xFF : BitVec 8) := by decide
  rw [hm, setWidth_eq_append, h]
  simp [and_ones8, and_ones4]

/-- The R row's test (R94): mask 0xFFFFF0FF. -/
theorem mask_r (w : Word) (k : BitVec 8) :
    w &&& 0xFFFFF0FF#32 = k.setWidth 32
      ↔ w.extractLsb' 24 8 = 0#8 ∧ w.extractLsb' 20 4 = 0#4 ∧ w.extractLsb' 16 4 = 0#4 ∧ w.extractLsb' 12 4 = 0#4
        ∧ w.extractLsb' 0 8 = k := by
  have h := masked_eq_iff w 0xFF 0 0xF 0 0xF 0 0xF 0 0 0 0xFF k
  have hm : 0xFFFFF0FF#32 = (0xFF : BitVec 8) ++ (0xF : BitVec 4) ++ (0xF : BitVec 4) ++ (0xF : BitVec 4) ++ (0 : BitVec 4)
      ++ (0xFF : BitVec 8) := by decide
  rw [hm, setWidth_eq_append, h]
  simp [and_ones8, and_ones4]

/-- A command word is the concatenation of the fields it was built from (R91). -/
theorem commandWord_eq_append (op : BitVec 8) (rd ra rb rc : Reg) :
    commandWord (op.setWidth 32) rd ra rb rc
      = (0 : BitVec 8) ++ (BitVec.ofFin rc : BitVec 4) ++ (BitVec.ofFin rb : BitVec 4) ++ (BitVec.ofFin ra : BitVec 4)
        ++ (BitVec.ofFin rd : BitVec 4) ++ op := by
  have hr : ∀ (r : Reg) (i : Nat), (BitVec.ofNat 32 r.val).getLsbD i = (BitVec.ofFin r : BitVec 4).getLsbD i := by
    intro r i
    by_cases h : i < 4
    · revert r
      interval_cases i <;> decide
    · rw [BitVec.getLsbD_of_ge (BitVec.ofFin r : BitVec 4) i (by omega)]
      by_cases h32 : i < 32
      · revert r
        interval_cases i <;> first | omega | decide
      · exact BitVec.getLsbD_of_ge _ _ (by omega)
  apply BitVec.eq_of_getLsbD_eq
  intro i hi
  have hz : ∀ (r : Reg) (j : Nat), 4 ≤ j → (BitVec.ofFin r : BitVec 4).getLsbD j = false := fun r j hj =>
    BitVec.getLsbD_of_ge _ _ hj
  have ho : ∀ j : Nat, 8 ≤ j → op.getLsbD j = false := fun j hj => BitVec.getLsbD_of_ge _ _ hj
  simp only [commandWord, regAt, BitVec.getLsbD_or, BitVec.getLsbD_shiftLeft, BitVec.getLsbD_append, BitVec.getLsbD_setWidth, hr]
  grind

/-- The RRR rows' test as a Bool. -/
theorem beq_rrr (w : Word) (k : BitVec 8) : (w &&& 0xFFF000FF#32 == k.setWidth 32) =
   decide (w.extractLsb' 24 8 = 0#8 ∧ w.extractLsb' 20 4 = 0#4 ∧ w.extractLsb' 0 8 = k) := by
  rw [Bool.eq_iff_iff]; simpa using mask_rrr w k

/-- The RRRR row's test as a Bool. -/
theorem beq_rrrr (w : Word) (k : BitVec 8) : (w &&& 0xFF0000FF#32 == k.setWidth 32) =
   decide (w.extractLsb' 24 8 = 0#8 ∧ w.extractLsb' 0 8 = k) := by
  rw [Bool.eq_iff_iff]; simpa using mask_rrrr w k

/-- The RR row's test as a Bool. -/
theorem beq_rr (w : Word) (k : BitVec 8) : (w &&& 0xFFF00FFF#32 == k.setWidth 32) =
   decide (w.extractLsb' 24 8 = 0#8 ∧ w.extractLsb' 20 4 = 0#4 ∧ w.extractLsb' 8 4 = 0#4 ∧ w.extractLsb' 0 8 = k) := by
  rw [Bool.eq_iff_iff]; simpa using mask_rr w k

/-- The R row's test as a Bool. -/
theorem beq_r (w : Word) (k : BitVec 8) : (w &&& 0xFFFFF0FF#32 == k.setWidth 32) =
   decide (w.extractLsb' 24 8 = 0#8 ∧ w.extractLsb' 20 4 = 0#4 ∧ w.extractLsb' 16 4 = 0#4 ∧ w.extractLsb' 12 4 = 0#4
        ∧ w.extractLsb' 0 8 = k) := by
  rw [Bool.eq_iff_iff]; simpa using mask_r w k

/-- What decoding does, by the fields of the word. -/
theorem decode_eq (w : Word) : decode w =
  if fieldRsv w = 0 ∧ w.extractLsb' 20 4 = 0 ∧ fieldOp w = 1 then .ok (.add (fieldRd w) (fieldRa w) (fieldRb w))
  else if fieldRsv w = 0 ∧ w.extractLsb' 20 4 = 0 ∧ fieldOp w = 2 then .ok (.sub (fieldRd w) (fieldRa w) (fieldRb w))
  else if fieldRsv w = 0 ∧ w.extractLsb' 20 4 = 0 ∧ fieldOp w = 3 then .ok (.mul (fieldRd w) (fieldRa w) (fieldRb w))
  else if fieldRsv w = 0 ∧ w.extractLsb' 20 4 = 0 ∧ fieldOp w = 4 then .ok (.div (fieldRd w) (fieldRa w) (fieldRb w))
  else if fieldRsv w = 0 ∧ w.extractLsb' 20 4 = 0 ∧ fieldOp w = 5 then .ok (.mod (fieldRd w) (fieldRa w) (fieldRb w))
  else if fieldRsv w = 0 ∧ fieldOp w = 6 then .ok (.pow (fieldRd w) (fieldRa w) (fieldRb w) (fieldRc w))
  else if fieldRsv w = 0 ∧ w.extractLsb' 20 4 = 0 ∧ w.extractLsb' 8 4 = 0 ∧ fieldOp w = 7 then .ok (.cmp (fieldRa w) (fieldRb w))
  else if fieldRsv w = 0 ∧ w.extractLsb' 20 4 = 0 ∧ w.extractLsb' 16 4 = 0 ∧ w.extractLsb' 12 4 = 0 ∧ fieldOp w = 8 then .ok (.seti (fieldRd w))
  else .error (illegalCase w) := by
  unfold decode
  simp only [opcodeMap, List.find?, OpcodeRow.covers, fieldRsv, fieldOp]
  have h1 := beq_rrr w 1#8
  have h2 := beq_rrr w 2#8
  have h3 := beq_rrr w 3#8
  have h4 := beq_rrr w 4#8
  have h5 := beq_rrr w 5#8
  have h6 := beq_rrrr w 6#8
  have h7 := beq_rr w 7#8
  have h8 := beq_r w 8#8
  simp only [BitVec.reduceSetWidth] at h1 h2 h3 h4 h5 h6 h7 h8
  simp only [BitVec.ofNat_eq_ofNat, h1, h2, h3, h4, h5, h6, h7, h8]
  by_cases c1 : (w.extractLsb' 24 8 = 0#8 ∧ w.extractLsb' 20 4 = 0#4 ∧ w.extractLsb' 0 8 = 1#8)
  · simp [c1]
  by_cases c2 : (w.extractLsb' 24 8 = 0#8 ∧ w.extractLsb' 20 4 = 0#4 ∧ w.extractLsb' 0 8 = 2#8)
  · simp [c2]
  by_cases c3 : (w.extractLsb' 24 8 = 0#8 ∧ w.extractLsb' 20 4 = 0#4 ∧ w.extractLsb' 0 8 = 3#8)
  · simp [c3]
  by_cases c4 : (w.extractLsb' 24 8 = 0#8 ∧ w.extractLsb' 20 4 = 0#4 ∧ w.extractLsb' 0 8 = 4#8)
  · simp [c4]
  by_cases c5 : (w.extractLsb' 24 8 = 0#8 ∧ w.extractLsb' 20 4 = 0#4 ∧ w.extractLsb' 0 8 = 5#8)
  · simp [c5]
  by_cases c6 : (w.extractLsb' 24 8 = 0#8 ∧ w.extractLsb' 0 8 = 6#8)
  · simp [c6]
  by_cases c7 : w.extractLsb' 24 8 = 0#8 ∧ w.extractLsb' 20 4 = 0#4 ∧ w.extractLsb' 8 4 = 0#4 ∧ w.extractLsb' 0 8 = 7#8
  · simp [c7]
  by_cases c8 : w.extractLsb' 24 8 = 0#8 ∧ w.extractLsb' 20 4 = 0#4 ∧ w.extractLsb' 16 4 = 0#4 ∧ w.extractLsb' 12 4 = 0#4
        ∧ w.extractLsb' 0 8 = 8#8
  · simp [c8]
  simp only [c1,c2,c3,c4,c5,c6,c7,c8, decide_false, if_false]


end Sys2Proof
end

