-- ==== Sys2Proof/Laws/State.lean ====
section
/-! SUPPORT. The small lemmas of the state's operations: one per field per update, all by `rfl`, and the register file's read
after write. -/

namespace Sys2Proof.Machine

/-! ### setReg -/

@[simp] theorem State.setReg_cfg (s : State) (r : Reg) (b : BigReg) : (s.setReg r b).cfg = s.cfg := rfl
@[simp] theorem State.setReg_regs (s : State) (r : Reg) (b : BigReg) : (s.setReg r b).regs = s.regs.set r.val b r.isLt := rfl
@[simp] theorem State.setReg_cmd (s : State) (r : Reg) (b : BigReg) : (s.setReg r b).cmd = s.cmd := rfl
@[simp] theorem State.setReg_done (s : State) (r : Reg) (b : BigReg) : (s.setReg r b).done = s.done := rfl
@[simp] theorem State.setReg_err (s : State) (r : Reg) (b : BigReg) : (s.setReg r b).err = s.err := rfl
@[simp] theorem State.setReg_ovr (s : State) (r : Reg) (b : BigReg) : (s.setReg r b).ovr = s.ovr := rfl
@[simp] theorem State.setReg_hostErr (s : State) (r : Reg) (b : BigReg) : (s.setReg r b).hostErr = s.hostErr := rfl
@[simp] theorem State.setReg_errCode (s : State) (r : Reg) (b : BigReg) : (s.setReg r b).errCode = s.errCode := rfl
@[simp] theorem State.setReg_ie (s : State) (r : Reg) (b : BigReg) : (s.setReg r b).ie = s.ie := rfl
@[simp] theorem State.setReg_result (s : State) (r : Reg) (b : BigReg) : (s.setReg r b).result = s.result := rfl
@[simp] theorem State.setReg_immLo (s : State) (r : Reg) (b : BigReg) : (s.setReg r b).immLo = s.immLo := rfl
@[simp] theorem State.setReg_immHi (s : State) (r : Reg) (b : BigReg) : (s.setReg r b).immHi = s.immHi := rfl
@[simp] theorem State.setReg_lreg (s : State) (r : Reg) (b : BigReg) : (s.setReg r b).lreg = s.lreg := rfl
@[simp] theorem State.setReg_lidx (s : State) (r : Reg) (b : BigReg) : (s.setReg r b).lidx = s.lidx := rfl
@[simp] theorem State.setReg_pending (s : State) (r : Reg) (b : BigReg) : (s.setReg r b).pending = s.pending := rfl
@[simp] theorem State.setReg_agenda (s : State) (r : Reg) (b : BigReg) : (s.setReg r b).agenda = s.agenda := rfl
@[simp] theorem State.setReg_readData (s : State) (r : Reg) (b : BigReg) : (s.setReg r b).readData = s.readData := rfl

/-! ### writeBack -/

@[simp] theorem State.writeBack_cfg (s : State) (d : Reg) (v : Int) : (s.writeBack d v).cfg = s.cfg := rfl
@[simp] theorem State.writeBack_regs (s : State) (d : Reg) (v : Int) :
    (s.writeBack d v).regs = s.regs.set d.val (enc s.cfg.lmax v) d.isLt := rfl
@[simp] theorem State.writeBack_cmd (s : State) (d : Reg) (v : Int) : (s.writeBack d v).cmd = s.cmd := rfl
@[simp] theorem State.writeBack_done (s : State) (d : Reg) (v : Int) : (s.writeBack d v).done = s.done := rfl
@[simp] theorem State.writeBack_err (s : State) (d : Reg) (v : Int) : (s.writeBack d v).err = s.err := rfl
@[simp] theorem State.writeBack_ovr (s : State) (d : Reg) (v : Int) : (s.writeBack d v).ovr = s.ovr := rfl
@[simp] theorem State.writeBack_hostErr (s : State) (d : Reg) (v : Int) : (s.writeBack d v).hostErr = s.hostErr := rfl
@[simp] theorem State.writeBack_errCode (s : State) (d : Reg) (v : Int) : (s.writeBack d v).errCode = s.errCode := rfl
@[simp] theorem State.writeBack_ie (s : State) (d : Reg) (v : Int) : (s.writeBack d v).ie = s.ie := rfl
@[simp] theorem State.writeBack_result (s : State) (d : Reg) (v : Int) : (s.writeBack d v).result = s.result := rfl
@[simp] theorem State.writeBack_immLo (s : State) (d : Reg) (v : Int) : (s.writeBack d v).immLo = s.immLo := rfl
@[simp] theorem State.writeBack_immHi (s : State) (d : Reg) (v : Int) : (s.writeBack d v).immHi = s.immHi := rfl
@[simp] theorem State.writeBack_lreg (s : State) (d : Reg) (v : Int) : (s.writeBack d v).lreg = s.lreg := rfl
@[simp] theorem State.writeBack_lidx (s : State) (d : Reg) (v : Int) : (s.writeBack d v).lidx = s.lidx := rfl
@[simp] theorem State.writeBack_pending (s : State) (d : Reg) (v : Int) : (s.writeBack d v).pending = s.pending := rfl
@[simp] theorem State.writeBack_agenda (s : State) (d : Reg) (v : Int) : (s.writeBack d v).agenda = s.agenda := rfl
@[simp] theorem State.writeBack_readData (s : State) (d : Reg) (v : Int) : (s.writeBack d v).readData = s.readData := rfl

/-! ### complete -/

@[simp] theorem State.complete_cfg (s : State) : (s.complete).cfg = s.cfg := rfl
@[simp] theorem State.complete_regs (s : State) : (s.complete).regs = s.regs := rfl
@[simp] theorem State.complete_cmd (s : State) : (s.complete).cmd = s.cmd := rfl
@[simp] theorem State.complete_done (s : State) : (s.complete).done = true := rfl
@[simp] theorem State.complete_err (s : State) : (s.complete).err = false := rfl
@[simp] theorem State.complete_ovr (s : State) : (s.complete).ovr = s.ovr := rfl
@[simp] theorem State.complete_hostErr (s : State) : (s.complete).hostErr = s.hostErr := rfl
@[simp] theorem State.complete_errCode (s : State) : (s.complete).errCode = .none := rfl
@[simp] theorem State.complete_ie (s : State) : (s.complete).ie = s.ie := rfl
@[simp] theorem State.complete_result (s : State) : (s.complete).result = s.result := rfl
@[simp] theorem State.complete_immLo (s : State) : (s.complete).immLo = s.immLo := rfl
@[simp] theorem State.complete_immHi (s : State) : (s.complete).immHi = s.immHi := rfl
@[simp] theorem State.complete_lreg (s : State) : (s.complete).lreg = s.lreg := rfl
@[simp] theorem State.complete_lidx (s : State) : (s.complete).lidx = s.lidx := rfl
@[simp] theorem State.complete_pending (s : State) : (s.complete).pending = Option.none := rfl
@[simp] theorem State.complete_agenda (s : State) : (s.complete).agenda = s.agenda := rfl
@[simp] theorem State.complete_readData (s : State) : (s.complete).readData = s.readData := rfl

/-! ### raise -/

@[simp] theorem State.raise_cfg (s : State) (c : ErrCode) : (s.raise c).cfg = s.cfg := rfl
@[simp] theorem State.raise_regs (s : State) (c : ErrCode) : (s.raise c).regs = s.regs := rfl
@[simp] theorem State.raise_cmd (s : State) (c : ErrCode) : (s.raise c).cmd = s.cmd := rfl
@[simp] theorem State.raise_done (s : State) (c : ErrCode) : (s.raise c).done = true := rfl
@[simp] theorem State.raise_err (s : State) (c : ErrCode) : (s.raise c).err = true := rfl
@[simp] theorem State.raise_ovr (s : State) (c : ErrCode) : (s.raise c).ovr = s.ovr := rfl
@[simp] theorem State.raise_hostErr (s : State) (c : ErrCode) : (s.raise c).hostErr = s.hostErr := rfl
@[simp] theorem State.raise_errCode (s : State) (c : ErrCode) : (s.raise c).errCode = c := rfl
@[simp] theorem State.raise_ie (s : State) (c : ErrCode) : (s.raise c).ie = s.ie := rfl
@[simp] theorem State.raise_result (s : State) (c : ErrCode) : (s.raise c).result = s.result := rfl
@[simp] theorem State.raise_immLo (s : State) (c : ErrCode) : (s.raise c).immLo = s.immLo := rfl
@[simp] theorem State.raise_immHi (s : State) (c : ErrCode) : (s.raise c).immHi = s.immHi := rfl
@[simp] theorem State.raise_lreg (s : State) (c : ErrCode) : (s.raise c).lreg = s.lreg := rfl
@[simp] theorem State.raise_lidx (s : State) (c : ErrCode) : (s.raise c).lidx = s.lidx := rfl
@[simp] theorem State.raise_pending (s : State) (c : ErrCode) : (s.raise c).pending = Option.none := rfl
@[simp] theorem State.raise_agenda (s : State) (c : ErrCode) : (s.raise c).agenda = s.agenda := rfl
@[simp] theorem State.raise_readData (s : State) (c : ErrCode) : (s.raise c).readData = s.readData := rfl

/-! ### accept -/

@[simp] theorem State.accept_cfg (s : State) (w : Word) : (s.accept w).cfg = s.cfg := rfl
@[simp] theorem State.accept_regs (s : State) (w : Word) : (s.accept w).regs = s.regs := rfl
@[simp] theorem State.accept_cmd (s : State) (w : Word) : (s.accept w).cmd = w := rfl
@[simp] theorem State.accept_done (s : State) (w : Word) : (s.accept w).done = false := rfl
@[simp] theorem State.accept_err (s : State) (w : Word) : (s.accept w).err = false := rfl
@[simp] theorem State.accept_ovr (s : State) (w : Word) : (s.accept w).ovr = s.ovr := rfl
@[simp] theorem State.accept_hostErr (s : State) (w : Word) : (s.accept w).hostErr = s.hostErr := rfl
@[simp] theorem State.accept_errCode (s : State) (w : Word) : (s.accept w).errCode = .none := rfl
@[simp] theorem State.accept_ie (s : State) (w : Word) : (s.accept w).ie = s.ie := rfl
@[simp] theorem State.accept_result (s : State) (w : Word) : (s.accept w).result = s.result := rfl
@[simp] theorem State.accept_immLo (s : State) (w : Word) : (s.accept w).immLo = s.immLo := rfl
@[simp] theorem State.accept_immHi (s : State) (w : Word) : (s.accept w).immHi = s.immHi := rfl
@[simp] theorem State.accept_lreg (s : State) (w : Word) : (s.accept w).lreg = s.lreg := rfl
@[simp] theorem State.accept_lidx (s : State) (w : Word) : (s.accept w).lidx = s.lidx := rfl
@[simp] theorem State.accept_pending (s : State) (w : Word) : (s.accept w).pending = some { word := w, imm := s.immHi ++ s.immLo } := rfl
@[simp] theorem State.accept_agenda (s : State) (w : Word) : (s.accept w).agenda = s.agenda := rfl
@[simp] theorem State.accept_readData (s : State) (w : Word) : (s.accept w).readData = s.readData := rfl

/-! ### refuse -/

@[simp] theorem State.refuse_cfg (s : State) : (s.refuse).cfg = s.cfg := rfl
@[simp] theorem State.refuse_regs (s : State) : (s.refuse).regs = s.regs := rfl
@[simp] theorem State.refuse_cmd (s : State) : (s.refuse).cmd = s.cmd := rfl
@[simp] theorem State.refuse_done (s : State) : (s.refuse).done = s.done := rfl
@[simp] theorem State.refuse_err (s : State) : (s.refuse).err = s.err := rfl
@[simp] theorem State.refuse_ovr (s : State) : (s.refuse).ovr = s.ovr := rfl
@[simp] theorem State.refuse_hostErr (s : State) : (s.refuse).hostErr = true := rfl
@[simp] theorem State.refuse_errCode (s : State) : (s.refuse).errCode = s.errCode := rfl
@[simp] theorem State.refuse_ie (s : State) : (s.refuse).ie = s.ie := rfl
@[simp] theorem State.refuse_result (s : State) : (s.refuse).result = s.result := rfl
@[simp] theorem State.refuse_immLo (s : State) : (s.refuse).immLo = s.immLo := rfl
@[simp] theorem State.refuse_immHi (s : State) : (s.refuse).immHi = s.immHi := rfl
@[simp] theorem State.refuse_lreg (s : State) : (s.refuse).lreg = s.lreg := rfl
@[simp] theorem State.refuse_lidx (s : State) : (s.refuse).lidx = s.lidx := rfl
@[simp] theorem State.refuse_pending (s : State) : (s.refuse).pending = s.pending := rfl
@[simp] theorem State.refuse_agenda (s : State) : (s.refuse).agenda = s.agenda := rfl
@[simp] theorem State.refuse_readData (s : State) : (s.refuse).readData = s.readData := rfl

/-! ### clearStatus -/

@[simp] theorem State.clearStatus_cfg (s : State) (v : Word) : (s.clearStatus v).cfg = s.cfg := rfl
@[simp] theorem State.clearStatus_regs (s : State) (v : Word) : (s.clearStatus v).regs = s.regs := rfl
@[simp] theorem State.clearStatus_cmd (s : State) (v : Word) : (s.clearStatus v).cmd = s.cmd := rfl
@[simp] theorem State.clearStatus_done (s : State) (v : Word) : (s.clearStatus v).done = (s.done && !v.getLsbD 1) := rfl
@[simp] theorem State.clearStatus_err (s : State) (v : Word) : (s.clearStatus v).err = (s.err && !v.getLsbD 2) := rfl
@[simp] theorem State.clearStatus_ovr (s : State) (v : Word) : (s.clearStatus v).ovr = (s.ovr && !v.getLsbD 3) := rfl
@[simp] theorem State.clearStatus_hostErr (s : State) (v : Word) : (s.clearStatus v).hostErr = (s.hostErr && !v.getLsbD 4) := rfl
@[simp] theorem State.clearStatus_errCode (s : State) (v : Word) : (s.clearStatus v).errCode = s.errCode := rfl
@[simp] theorem State.clearStatus_ie (s : State) (v : Word) : (s.clearStatus v).ie = s.ie := rfl
@[simp] theorem State.clearStatus_result (s : State) (v : Word) : (s.clearStatus v).result = s.result := rfl
@[simp] theorem State.clearStatus_immLo (s : State) (v : Word) : (s.clearStatus v).immLo = s.immLo := rfl
@[simp] theorem State.clearStatus_immHi (s : State) (v : Word) : (s.clearStatus v).immHi = s.immHi := rfl
@[simp] theorem State.clearStatus_lreg (s : State) (v : Word) : (s.clearStatus v).lreg = s.lreg := rfl
@[simp] theorem State.clearStatus_lidx (s : State) (v : Word) : (s.clearStatus v).lidx = s.lidx := rfl
@[simp] theorem State.clearStatus_pending (s : State) (v : Word) : (s.clearStatus v).pending = s.pending := rfl
@[simp] theorem State.clearStatus_agenda (s : State) (v : Word) : (s.clearStatus v).agenda = s.agenda := rfl
@[simp] theorem State.clearStatus_readData (s : State) (v : Word) : (s.clearStatus v).readData = s.readData := rfl

/-! ### resetBau -/

@[simp] theorem State.resetBau_cfg (s : State) : (s.resetBau).cfg = s.cfg := rfl
@[simp] theorem State.resetBau_regs (s : State) : (s.resetBau).regs = Vector.replicate 16 (BigReg.zero s.cfg.lmax) := rfl
@[simp] theorem State.resetBau_cmd (s : State) : (s.resetBau).cmd = 0 := rfl
@[simp] theorem State.resetBau_done (s : State) : (s.resetBau).done = false := rfl
@[simp] theorem State.resetBau_err (s : State) : (s.resetBau).err = false := rfl
@[simp] theorem State.resetBau_ovr (s : State) : (s.resetBau).ovr = false := rfl
@[simp] theorem State.resetBau_hostErr (s : State) : (s.resetBau).hostErr = false := rfl
@[simp] theorem State.resetBau_errCode (s : State) : (s.resetBau).errCode = .none := rfl
@[simp] theorem State.resetBau_ie (s : State) : (s.resetBau).ie = false := rfl
@[simp] theorem State.resetBau_result (s : State) : (s.resetBau).result = 0 := rfl
@[simp] theorem State.resetBau_immLo (s : State) : (s.resetBau).immLo = 0 := rfl
@[simp] theorem State.resetBau_immHi (s : State) : (s.resetBau).immHi = 0 := rfl
@[simp] theorem State.resetBau_lreg (s : State) : (s.resetBau).lreg = 0 := rfl
@[simp] theorem State.resetBau_lidx (s : State) : (s.resetBau).lidx = 0 := rfl
@[simp] theorem State.resetBau_pending (s : State) : (s.resetBau).pending = Option.none := rfl
@[simp] theorem State.resetBau_agenda (s : State) : (s.resetBau).agenda = s.agenda := rfl
@[simp] theorem State.resetBau_readData (s : State) : (s.resetBau).readData = s.readData := rfl

/-! ### The register file -/

theorem State.reg_def (s : State) (r : Reg) : s.reg r = s.regs[r.val] := rfl

@[simp] theorem State.reg_setReg_same (s : State) (r : Reg) (b : BigReg) : (s.setReg r b).reg r = b := by
  simp [State.reg_def]

theorem State.reg_setReg_of_ne (s : State) (b : BigReg) (r q : Reg) (h : q ≠ r) : (s.setReg r b).reg q = s.reg q := by
  have h' : r.val ≠ q.val := fun e => h (Fin.ext e.symm)
  simp [State.reg_def, h']

@[simp] theorem State.reg_writeBack_same (s : State) (d : Reg) (v : Int) : (s.writeBack d v).reg d = enc s.cfg.lmax v := by
  simp [State.writeBack]

theorem State.reg_writeBack_of_ne (s : State) (v : Int) (d q : Reg) (h : q ≠ d) : (s.writeBack d v).reg q = s.reg q :=
  State.reg_setReg_of_ne s _ d q h

@[simp] theorem State.reg_complete (s : State) (r : Reg) : s.complete.reg r = s.reg r := rfl
@[simp] theorem State.reg_raise (s : State) (c : ErrCode) (r : Reg) : (s.raise c).reg r = s.reg r := rfl
@[simp] theorem State.reg_accept (s : State) (w : Word) (r : Reg) : (s.accept w).reg r = s.reg r := rfl
@[simp] theorem State.reg_refuse (s : State) (r : Reg) : s.refuse.reg r = s.reg r := rfl
@[simp] theorem State.reg_clearStatus (s : State) (v : Word) (r : Reg) : (s.clearStatus v).reg r = s.reg r := rfl

@[simp] theorem State.reg_resetOf (c : Config) (r : Reg) : (State.resetOf c).reg r = BigReg.zero c.lmax := by
  simp [State.reg_def, State.resetOf]

@[simp] theorem State.reg_resetBau (s : State) (r : Reg) : s.resetBau.reg r = BigReg.zero s.cfg.lmax := by
  simp [State.reg_def]

/-- `State.raise` is the error completion as the claims write it. -/
theorem State.raise_eq_afterError (s : State) (c : ErrCode) : s.raise c = afterError s c := rfl

/-- The bytes of a written word come back as the word. -/
@[simp] theorem toLanes_length (v : Word) : (toLanes v).length = 4 := rfl

end Sys2Proof.Machine
end

