-- ==== Sys2Proof/Laws/Values.lean ====
section
/-! SUPPORT. Facts about limb sequences, digit counts and encodings (10_state.md R22 to R24). -/

namespace Sys2Proof.Machine

theorem radix_pos : 0 < radix := by decide

theorem one_lt_radix : 1 < radix := by decide

/-- A digit count is at most k exactly when the number has at most k digits. -/
theorem digitCount_le_iff : ∀ (fuel n k : Nat), n < 2 ^ fuel → (digitCount fuel n ≤ k ↔ n < radix ^ k) := by
  intro fuel
  induction fuel with
  | zero =>
    intro n k h
    have hn : n = 0 := by simpa using h
    subst hn
    simp [digitCount, radix_pos]
  | succ fuel ih =>
    intro n k h
    by_cases hn : n = 0
    · subst hn
      simp [digitCount, radix_pos]
    · have hlt : n / radix < 2 ^ fuel := by
        have h2 : n / radix ≤ n / 2 := Nat.div_le_div_left (by decide) (by decide)
        have h3 : n / 2 < 2 ^ fuel := by omega
        omega
      simp only [digitCount, hn, if_false]
      cases k with
      | zero => simp; omega
      | succ k =>
        rw [show (1 + digitCount fuel (n / radix) ≤ k + 1 ↔ digitCount fuel (n / radix) ≤ k) by omega,
          ih _ _ hlt, Nat.div_lt_iff_lt_mul radix_pos, pow_succ]

/-- The defining property of nlen: at most k digits exactly when |v| < R^k (10_state.md R24). -/
theorem nlen_le_iff (v : Int) (k : Nat) : nlen v ≤ k ↔ v.natAbs < radix ^ k :=
  digitCount_le_iff _ _ _ Nat.lt_log2_self

theorem lt_nlen_iff (v : Int) (k : Nat) : k < nlen v ↔ radix ^ k ≤ v.natAbs := by
  rw [← not_le, nlen_le_iff, not_lt]

theorem natAbs_lt_pow_nlen (v : Int) : v.natAbs < radix ^ nlen v :=
  (nlen_le_iff v _).1 le_rfl

theorem nlen_congr {v w : Int} (h : v.natAbs = w.natAbs) : nlen v = nlen w := by
  simp [nlen, h]

/-- A value of no greater magnitude is no longer. -/
theorem nlen_mono {v w : Int} (h : v.natAbs ≤ w.natAbs) : nlen v ≤ nlen w :=
  (nlen_le_iff v _).2 (lt_of_le_of_lt h (natAbs_lt_pow_nlen w))

@[simp] theorem magOf_nil : magOf [] = 0 := rfl

theorem magOf_cons (l : Nat) (ls : List Nat) : magOf (l :: ls) = l + radix * magOf ls := rfl

theorem magOf_append (xs ys : List Nat) : magOf (xs ++ ys) = magOf xs + radix ^ xs.length * magOf ys := by
  induction xs with
  | nil => simp
  | cons x xs ih => simp only [List.cons_append, magOf_cons, ih, List.length_cons, pow_succ]; ring

/-- Limbs below R make a number below R^length. -/
theorem magOf_lt_pow (xs : List Nat) (h : ∀ l ∈ xs, l < radix) : magOf xs < radix ^ xs.length := by
  induction xs with
  | nil => simp
  | cons x xs ih =>
    have hx := h x (by simp)
    have hm := ih fun l hl => h l (by simp [hl])
    rw [magOf_cons, List.length_cons, pow_succ]
    nlinarith

/-- The digits of a number, taken by position, make the number modulo R^n. -/
theorem magOf_digits (v n : Nat) : magOf ((List.range n).map fun i => v / radix ^ i % radix) = v % radix ^ n := by
  induction n with
  | zero => simp [Nat.mod_one]
  | succ n ih =>
    rw [List.range_succ, List.map_append, magOf_append, ih, Nat.mod_pow_succ]
    simp [magOf_cons]

/-- A top limb that is not 0 makes the number at least R^(length − 1). -/
theorem pow_le_magOf (xs : List Nat) (x : Nat) (hx : x ≠ 0) : radix ^ xs.length ≤ magOf (xs ++ [x]) := by
  rw [magOf_append]
  simp only [magOf_cons, magOf_nil, mul_zero, add_zero]
  exact le_add_left (Nat.le_mul_of_pos_right _ (Nat.pos_of_ne_zero hx))

@[simp] theorem encLimbs_length (lmax : Nat) (v : Int) : (encLimbs lmax v).length = lmax := by
  simp [encLimbs]

@[simp] theorem enc_limb (lmax : Nat) (v : Int) : (enc lmax v).limb = encLimbs lmax v := rfl

@[simp] theorem enc_sign (lmax : Nat) (v : Int) : (enc lmax v).sign = if v < 0 then .negative else .positive := rfl

@[simp] theorem enc_len (lmax : Nat) (v : Int) : (enc lmax v).len = BitVec.ofNat 16 (nlen v) := rfl

/-- A digit fits the 20 bits of a limb cell. -/
theorem digit_toNat (n : Nat) : (BitVec.ofNat 20 (n % radix)).toNat = n % radix := by
  have h : n % radix < radix := Nat.mod_lt _ radix_pos
  have hr : radix < 2 ^ 20 := by decide
  simp only [BitVec.toNat_ofNat]
  exact Nat.mod_eq_of_lt (by omega)

theorem enc_cell (lmax : Nat) (v : Int) (i : Nat) (h : i < lmax) :
    ((enc lmax v).cell i).toNat = v.natAbs / radix ^ i % radix := by
  simp only [BigReg.cell, enc_limb, encLimbs, List.getD_eq_getElem?_getD, List.getElem?_map, List.getElem?_range h]
  simpa using digit_toNat _

theorem encLimbs_lt (lmax : Nat) (v : Int) : ∀ l ∈ encLimbs lmax v, l.toNat < radix := by
  intro l hl
  simp only [encLimbs, List.mem_map, List.mem_range] at hl
  obtain ⟨i, _, rfl⟩ := hl
  rw [digit_toNat]
  exact Nat.mod_lt _ radix_pos

/-- The encoding's len holds its digit count when that fits 16 bits. -/
theorem enc_len_toNat (lmax : Nat) (v : Int) (h : nlen v < 2 ^ 16) : (enc lmax v).len.toNat = nlen v := by
  simpa using h

/-- The encoding of a value that fits has the value's magnitude. -/
theorem enc_mag (lmax : Nat) (v : Int) (hl : lmax < 2 ^ 16) (h : nlen v ≤ lmax) : (enc lmax v).mag = v.natAbs := by
  have hlen : (enc lmax v).limbs = (List.range (nlen v)).map fun i => v.natAbs / radix ^ i % radix := by
    simp only [BigReg.limbs, enc_len_toNat lmax v (by omega), enc_limb, encLimbs, ← List.map_take, List.map_map,
      List.take_range, Nat.min_eq_left h]
    exact List.map_congr_left fun i _ => digit_toNat _
  rw [BigReg.mag, hlen, magOf_digits]
  exact Nat.mod_eq_of_lt (natAbs_lt_pow_nlen v)

/-- tdiv of 00_scope.md R15 is truncating division. -/
theorem truncDiv_eq_tdiv (a b : Int) : truncDiv a b = a.tdiv b := by
  unfold truncDiv
  rcases Int.natAbs_eq a with ha | ha <;> rcases Int.natAbs_eq b with hb | hb <;>
    · generalize a.natAbs = x at *
      generalize b.natAbs = y at *
      subst ha hb
      rcases Nat.eq_zero_or_pos x with hx | hx <;> rcases Nat.eq_zero_or_pos y with hy | hy <;>
        simp [hx, hy, Int.sign_eq_one_of_pos]

/-- trem of 00_scope.md R15 is the remainder of truncating division. -/
theorem truncRem_eq_tmod (a b : Int) : truncRem a b = a.tmod b := by
  rw [truncRem, truncDiv_eq_tdiv, Int.tmod_def]

end Sys2Proof.Machine
end

