-- ==== Sys2Proof/Laws/Limbs.lean ====
section
/-! SUPPORT. The limb storage keeps its form (`BigReg.Ok`): every operation that writes a register keeps LMAX cells, each below R,
and len at most LMAX; reset has the form. Spec: 10_state.md R20, R21. -/

namespace Sys2Proof.Machine

theorem BigReg.zero_ok (lmax : Nat) : (BigReg.zero lmax).Ok lmax := by
  refine ⟨by simp [BigReg.zero], fun l hl => ?_, Nat.zero_le _⟩
  rw [List.eq_of_mem_replicate hl]
  exact radix_pos

theorem enc_ok (lmax : Nat) (v : Int) (hl : lmax ≤ 512) (h : nlen v ≤ lmax) : (enc lmax v).Ok lmax := by
  refine ⟨encLimbs_length lmax v, encLimbs_lt lmax v, ?_⟩
  rw [enc_len_toNat lmax v (by omega)]
  exact h

/-- Replacing one register by a register of the form keeps the form of all. -/
theorem State.setReg_ok (s : State) (r : Reg) (b : BigReg) (h : ∀ q, (s.reg q).Ok s.cfg.lmax) (hb : b.Ok s.cfg.lmax)
    (q : Reg) : ((s.setReg r b).reg q).Ok s.cfg.lmax := by
  by_cases hq : q = r
  · subst hq
    rw [State.reg_setReg_same]
    exact hb
  · rw [State.reg_setReg_of_ne s b r q hq]
    exact h q

/-- A limb cell that takes a value below R keeps the form; so an LDATA write does (20_memory.md R66). -/
theorem writeLdata_ok (v : Word) (s : State) (h : ∀ q, (s.reg q).Ok s.cfg.lmax) (q : Reg) :
    ((writeLdata v s).reg q).Ok s.cfg.lmax := by
  unfold writeLdata
  split_ifs with h1 h2
  · exact h q
  · exact h q
  · refine s.setReg_ok s.lreg { s.reg s.lreg with limb := (s.reg s.lreg).limb.set s.lidx.toNat (v.extractLsb' 0 20) } h
      ⟨?_, fun l hl => ?_, (h s.lreg).2.2⟩ q
    · simpa using (h s.lreg).1
    · rcases List.mem_or_eq_of_mem_set hl with hm | rfl
      · exact (h s.lreg).2.1 l hm
      · rw [BitVec.extractLsb'_toNat]
        exact lt_of_le_of_lt (le_trans (Nat.mod_le _ _) (by simp)) (not_le.mp h2)

/-- A len that passed the check of an LMETA write keeps the form (20_memory.md R68). -/
theorem writeLmeta_ok (v : Word) (s : State) (h : ∀ q, (s.reg q).Ok s.cfg.lmax) (q : Reg) :
    ((writeLmeta v s).reg q).Ok s.cfg.lmax := by
  unfold writeLmeta
  split_ifs with h1 h2 h3
  · exact h q
  · exact h q
  · exact h q
  · exact s.setReg_ok s.lreg { s.reg s.lreg with sign := Sign.ofBit (v.extractLsb' 31 1), len := v.extractLsb' 0 16 } h
      ⟨(h s.lreg).1, (h s.lreg).2.1, not_lt.mp h3⟩ q

/-- Write-back keeps the form when the result fits (10_state.md R25). -/
theorem State.writeBack_ok (s : State) (d : Reg) (v : Int) (hl : s.cfg.lmax ≤ 512) (hv : nlen v ≤ s.cfg.lmax)
    (h : ∀ q, (s.reg q).Ok s.cfg.lmax) (q : Reg) : ((s.writeBack d v).reg q).Ok s.cfg.lmax :=
  s.setReg_ok d _ h (enc_ok _ v hl hv) q

theorem State.resetOf_ok (c : Config) (q : Reg) : ((State.resetOf c).reg q).Ok c.lmax := by
  rw [State.reg_resetOf]
  exact BigReg.zero_ok _

end Sys2Proof.Machine
end

