-- ==== Sys2Proof/Laws/Ops.lean ====
section
/-! SUPPORT. What each shared operation can do, said once: the command template, the meanings, the sequencer, the host's turn and
the step. -/

namespace Sys2Proof.Machine

theorem State.sourcesWf_iff (s : State) (rs : List Reg) : s.sourcesWf rs = true ↔ ∀ r ∈ rs, s.Wf r := by
  simp [State.sourcesWf, State.Wf]

/-! ### The command template (40_addsub.md R110) -/

theorem State.compute_of_badSource (s : State) (srcs : List Reg) (rd : Reg) (o : Except ErrCode Int)
    (h : ¬ ∀ r ∈ srcs, s.Wf r) : s.compute srcs rd o = s.raise .operand := by
  rw [← State.sourcesWf_iff] at h
  simp [State.compute, h]

theorem State.compute_of_error (s : State) (srcs : List Reg) (rd : Reg) (c : ErrCode) (h : ∀ r ∈ srcs, s.Wf r) :
    s.compute srcs rd (.error c) = s.raise c := by
  rw [← State.sourcesWf_iff] at h
  simp [State.compute, h]

theorem State.compute_of_overflow (s : State) (srcs : List Reg) (rd : Reg) (v : Int) (h : ∀ r ∈ srcs, s.Wf r)
    (hv : s.cfg.lmax < nlen v) : s.compute srcs rd (.ok v) = s.raise .overflow := by
  rw [← State.sourcesWf_iff] at h
  simp [State.compute, h, State.deliver, hv]

theorem State.compute_of_fits (s : State) (srcs : List Reg) (rd : Reg) (v : Int) (h : ∀ r ∈ srcs, s.Wf r)
    (hv : nlen v ≤ s.cfg.lmax) : s.compute srcs rd (.ok v) = (s.writeBack rd v).complete := by
  rw [← State.sourcesWf_iff] at h
  simp [State.compute, h, State.deliver, Nat.not_lt.2 hv]

/-- Everything the template can do: an error completion, or the write-back of a value that fits. -/
theorem State.compute_cases (s : State) (srcs : List Reg) (rd : Reg) (o : Except ErrCode Int) :
    (∃ c, s.compute srcs rd o = s.raise c ∧ (c = .operand ∨ c = .overflow ∨ o = .error c))
      ∨ ∃ v, o = .ok v ∧ nlen v ≤ s.cfg.lmax ∧ s.compute srcs rd o = (s.writeBack rd v).complete := by
  by_cases h : ∀ r ∈ srcs, s.Wf r
  · match o with
    | .error c => exact .inl ⟨c, s.compute_of_error srcs rd c h, .inr (.inr rfl)⟩
    | .ok v =>
      by_cases hv : nlen v ≤ s.cfg.lmax
      · exact .inr ⟨v, rfl, hv, s.compute_of_fits srcs rd v h hv⟩
      · exact .inl ⟨.overflow, s.compute_of_overflow srcs rd v h (by omega), .inr (.inl rfl)⟩
  · exact .inl ⟨.operand, s.compute_of_badSource srcs rd o h, .inl rfl⟩

/-! ### The POW loop's errors -/

/-- The loop raises OVERFLOW and nothing else (43_pow.md R189). -/
theorem powPass_error (lmax : Nat) (m : Int) (r : PowRegs) (c : ErrCode) (h : powPass lmax m r = .error c) :
    c = .overflow := by
  have hr : ∀ p c, powReduce lmax m p = .error c → c = .overflow := by
    intro p c h
    unfold powReduce at h
    split_ifs at h
    cases h
    rfl
  have ha : ∀ c, powAcc lmax m r = .error c → c = .overflow := by
    intro c h
    unfold powAcc at h
    split_ifs at h
    exact hr _ _ h
  have hb : ∀ c, powBase lmax m r = .error c → c = .overflow := by
    intro c h
    unfold powBase at h
    split_ifs at h
    exact hr _ _ h
  unfold powPass at h
  split at h
  · rename_i c' e
    cases h
    exact ha _ e
  · split at h
    · rename_i c' e
      cases h
      exact hb _ e
    · cases h

theorem powLoop_error (lmax : Nat) (m : Int) (fuel : Nat) (r : PowRegs) (c : ErrCode)
    (h : powLoop lmax m fuel r = .error c) : c = .overflow := by
  induction fuel generalizing r with
  | zero => cases h
  | succ fuel ih =>
    unfold powLoop at h
    split_ifs at h
    split at h
    · rename_i c' e
      cases h
      exact powPass_error lmax m r _ e
    · exact ih _ h

/-! ### The commands -/

/-- A signed 64-bit integer needs at most four limbs (44_compare_construct.md R205). -/
theorem nlen_immValue (imm : BitVec 64) : nlen (immValue imm) ≤ 4 := by
  rw [nlen_le_iff]
  have h := imm.isLt
  have hr : radix ^ 4 = 1000000000000000000000000 := by decide
  rw [hr]
  unfold immValue
  split_ifs <;> omega

/-- Everything a command can do: an error completion, the write-back of a value that fits, or a comparison's RESULT. -/
theorem exec_cases (i : Instr) (s : State) :
    (∃ c, c ≠ .none ∧ exec i s = .next (s.raise c))
      ∨ (∃ rd v, i.dest = some rd ∧ (nlen v ≤ s.cfg.lmax ∨ nlen v ≤ 4) ∧ exec i s = .next (s.writeBack rd v).complete)
      ∨ (∃ ra rb, i = .cmp ra rb
          ∧ exec i s = .next { s with result := resultWord (s.val ra - s.val rb).sign }.complete) := by
  have key : ∀ (srcs : List Reg) (rd : Reg) (o : Except ErrCode Int), (∀ c, o = .error c → c ≠ .none) → i.dest = some rd →
      exec i s = .next (s.compute srcs rd o) →
      (∃ c, c ≠ .none ∧ exec i s = .next (s.raise c))
        ∨ (∃ rd v, i.dest = some rd ∧ (nlen v ≤ s.cfg.lmax ∨ nlen v ≤ 4) ∧ exec i s = .next (s.writeBack rd v).complete)
        ∨ (∃ ra rb, i = .cmp ra rb
            ∧ exec i s = .next { s with result := resultWord (s.val ra - s.val rb).sign }.complete) := by
    intro srcs rd o ho hd he
    rcases s.compute_cases srcs rd o with ⟨c, hc, hcase⟩ | ⟨v, _, hv, hc⟩
    · refine .inl ⟨c, ?_, by rw [he, hc]⟩
      rcases hcase with rfl | rfl | h
      · decide
      · decide
      · exact ho c h
    · exact .inr (.inl ⟨rd, v, hd, .inl hv, by rw [he, hc]⟩)
  cases i with
  | add rd ra rb => exact key _ _ _ (by simp) rfl rfl
  | sub rd ra rb => exact key _ _ _ (by simp) rfl rfl
  | mul rd ra rb => exact key _ _ _ (by simp) rfl rfl
  | div rd ra rb =>
    refine key _ _ _ (fun c h => ?_) rfl rfl
    split_ifs at h
    cases h
    decide
  | mod rd ra rb =>
    refine key _ _ _ (fun c h => ?_) rfl rfl
    split_ifs at h
    cases h
    decide
  | pow rd ra rb rc =>
    refine key _ _ _ (fun c h => ?_) rfl rfl
    split_ifs at h
    · cases h
      decide
    · rw [powLoop_error _ _ _ _ _ h]
      decide
  | cmp ra rb =>
    by_cases h : s.sourcesWf [ra, rb] = true
    · exact .inr (.inr ⟨ra, rb, rfl, by simp [exec, execCmp, h]⟩)
    · exact .inl ⟨.operand, by decide, by simp [exec, execCmp, h]⟩
  | seti rd => exact .inr (.inl ⟨rd, immValue s.capturedImm, rfl, .inr (nlen_immValue _), rfl⟩)

/-- The sequencer completes a word with a next state: ILLEGAL, or what its command does. -/
theorem completeWord_cases (w : Word) (s : State) :
    (∃ e, decode w = .error e ∧ completeWord w s = .next (s.raise .illegal))
      ∨ ∃ i, decode w = .ok i ∧ completeWord w s = exec i s := by
  unfold completeWord
  cases decode w with
  | error e => exact .inl ⟨e, rfl, rfl⟩
  | ok i => exact .inr ⟨i, rfl, rfl⟩

theorem exec_next (i : Instr) (s : State) : ∃ t, exec i s = .next t := by
  rcases exec_cases i s with ⟨c, _, h⟩ | ⟨rd, v, _, _, h⟩ | ⟨ra, rb, _, h⟩ <;> exact ⟨_, h⟩

theorem completeWord_next (w : Word) (s : State) : ∃ t, completeWord w s = .next t := by
  rcases completeWord_cases w s with ⟨_, _, h⟩ | ⟨i, _, h⟩
  · exact ⟨_, h⟩
  · obtain ⟨t, ht⟩ := exec_next i s
    exact ⟨t, h.trans ht⟩

theorem sequencerTurn_next (s : State) : ∃ t, sequencerTurn s = .next t := by
  unfold sequencerTurn
  split
  · exact completeWord_next _ s
  · exact ⟨s, rfl⟩

/-! ### The register window -/

/-- A host read leaves everything but HOSTERR and the answer. -/
theorem mmioRead_state (r : MmioReg) (s : State) : (mmioRead r s).2 = s ∨ (mmioRead r s).2 = s.refuse := by
  cases r <;> simp only [mmioRead, readLdata, readLmeta, true_or] <;> split_ifs <;> simp

/-- A refused LDATA read answers 0 and sets HOSTERR; one that is not refused answers the cell. -/
theorem readLdata_of_refused (s : State) (h : s.ldataRefused = true) : readLdata s = (0, s.refuse) :=
  if_pos h

theorem readLdata_of_answered (s : State) (h : s.ldataRefused = false) :
    readLdata s = (((s.reg s.lreg).cell s.lidx.toNat).setWidth 32, s) :=
  if_neg (by simp [h])

/-- A refused LMETA read answers 0 and sets HOSTERR; one that is not refused answers sign and len. -/
theorem readLmeta_of_busy (s : State) (h : s.busy = true) : readLmeta s = (0, s.refuse) :=
  if_pos h

theorem readLmeta_of_idle (s : State) (h : s.busy = false) : readLmeta s = ((s.reg s.lreg).metaWord, s) :=
  if_neg (by simp [h])

/-- An access goes to the window exactly when the address of its first byte lies there. -/
theorem inWindow_iff (cfg : Config) (a : HostAccess) :
    inWindow cfg a = true ↔ cfg.mmioBase ≤ a.addr ∧ a.addr < cfg.mmioBase + windowBytes := by
  simp [inWindow]

theorem hostTurn_read (addr bytes : Nat) (s : State) (h : inWindow s.cfg (.read addr bytes) = true) :
    hostTurn (.read addr bytes) s = .next (hostRead (addr - s.cfg.mmioBase) bytes s) := by
  simp [hostTurn, h]

theorem hostTurn_write (addr : Nat) (data : List Byte) (s : State) (h : inWindow s.cfg (.write addr data) = true) :
    hostTurn (.write addr data) s = .next (hostWrite (addr - s.cfg.mmioBase) data s) := by
  simp [hostTurn, h]

theorem hostTurn_next (a : HostAccess) (s : State) (h : inWindow s.cfg a = true) : ∃ t, hostTurn a s = .next t := by
  cases a with
  | read addr bytes => exact ⟨_, hostTurn_read addr bytes s h⟩
  | write addr data => exact ⟨_, hostTurn_write addr data s h⟩

theorem hostTurn_outside (a : HostAccess) (s : State) (h : inWindow s.cfg a = false) :
    hostTurn a s = .fault (.outsideWindow a.addr) := by
  simp [hostTurn, h]

/-- The lanes of a word give the word back. -/
@[simp] theorem ofLanes_toLanes (v : Word) : ofLanes (toLanes v) = v := by
  apply BitVec.eq_of_getLsbD_eq
  intro i hi
  simp only [ofLanes, toLanes, List.getD_eq_getElem?_getD, List.getElem?_cons_succ, List.getElem?_cons_zero,
    Option.getD_some, BitVec.getLsbD_append, BitVec.getLsbD_extractLsb']
  split_ifs <;> grind

/-- Four byte lanes are the lanes of the word they give. -/
theorem toLanes_ofLanes (data : List Byte) (h : data.length = 4) : toLanes (ofLanes data) = data := by
  match data, h with
  | [a, b, c, d], _ =>
    simp only [toLanes, ofLanes, List.getD_cons_zero, List.getD_cons_succ, List.cons.injEq, and_true]
    refine ⟨?_, ?_, ?_, ?_⟩ <;>
      · apply BitVec.eq_of_getLsbD_eq
        intro i hi
        simp only [BitVec.getLsbD_append, BitVec.getLsbD_extractLsb']
        grind

/-- A 32-bit write at an offset that is a multiple of 4 is dispatched to the register there. -/
theorem hostWrite_toLanes (off : Nat) (v : Word) (s : State) (h : off % 4 = 0) :
    hostWrite off (toLanes v) s = mmioWrite (mmioAt off) v s := by
  simp [hostWrite, definedAccess, h]

theorem hostRead_word (off : Nat) (s : State) (h : off % 4 = 0) :
    hostRead off 4 s
      = { (mmioRead (mmioAt off) s).2 with readData := toLanes (mmioRead (mmioAt off) s).1 } := by
  simp [hostRead, definedAccess, h]

/-! ### The step -/

theorem step_of_empty (s : State) (h : s.agenda = []) : step s = sequencerTurn s := by
  simp [step, h]

theorem step_of_sequencer (s : State) (rest : List Turn) (h : s.agenda = .sequencer :: rest) :
    step s = sequencerTurn { s with agenda := rest } := by
  simp [step, h]

theorem step_of_host (s : State) (a : HostAccess) (rest : List Turn) (h : s.agenda = .host a :: rest) :
    step s = hostTurn a { s with agenda := rest } := by
  simp [step, h]

theorem step_of_hardReset (s : State) (rest : List Turn) (h : s.agenda = .hardReset :: rest) :
    step s = .next { s with agenda := rest }.resetBau := by
  simp [step, h]

end Sys2Proof.Machine
end

