-- ==== Sys2Proof/Laws/PerInstr.lean ====
section
/-! SUPPORT. The family `Form` of statements about each command as syntax: what a command's word and its form's registers look
like. One lemma per constructor of `Instr`. -/

namespace Sys2Proof.Laws.Form

/-- The word of a command has the command's opcode in its lowest byte, bits [31:24] zero, and is well formed
(30_encoding.md R91, R92, R94, R96); a command with a destination and sources names them in its fields. -/
def Statement (i : Instr) : Prop :=
  fieldRsv (encode i) = 0 ∧ (encode i).wellFormed = true
    ∧ (∀ d, i.dest = some d → fieldRd (encode i) = d)
    ∧ (i.dest = none → fieldRd (encode i) = 0)
    ∧ (∀ r, i.sources[0]? = some r → fieldRa (encode i) = r)
    ∧ (∀ r, i.sources[1]? = some r → fieldRb (encode i) = r)
    ∧ (∀ r, i.sources[2]? = some r → fieldRc (encode i) = r)

/-- A command word has the fields it was built from. -/
theorem fields (op : BitVec 8) (rd ra rb rc : Reg) (w : Word) (h : w = commandWord (op.setWidth 32) rd ra rb rc) :
    w.extractLsb' 24 8 = 0 ∧ w.extractLsb' 20 4 = BitVec.ofFin rc ∧ w.extractLsb' 16 4 = BitVec.ofFin rb
      ∧ w.extractLsb' 12 4 = BitVec.ofFin ra ∧ w.extractLsb' 8 4 = BitVec.ofFin rd ∧ w.extractLsb' 0 8 = op := by
  rw [commandWord_eq_append] at h
  exact (append_fields_inj _ _ _ _ _ _ _ _ _ _ _ _).mp ((word_eq_append w).symm.trans h)

/-- The statement of a command follows from the fields of its word, once and for all forms. -/
theorem of_fields (i : Instr) (op : BitVec 8) (rd ra rb rc : Reg) (he : encode i = commandWord (op.setWidth 32) rd ra rb rc)
    (hw : ∀ w : Word, w.extractLsb' 24 8 = 0 → w.extractLsb' 20 4 = BitVec.ofFin rc → w.extractLsb' 16 4 = BitVec.ofFin rb →
      w.extractLsb' 12 4 = BitVec.ofFin ra → w.extractLsb' 8 4 = BitVec.ofFin rd → w.extractLsb' 0 8 = op → w.wellFormed = true)
    (hd : ∀ d, i.dest = some d → rd = d) (hn : i.dest = none → rd = 0) (h0 : ∀ r, i.sources[0]? = some r → ra = r)
    (h1 : ∀ r, i.sources[1]? = some r → rb = r) (h2 : ∀ r, i.sources[2]? = some r → rc = r) : Statement i := by
  obtain ⟨f1, f2, f3, f4, f5, f6⟩ := fields op rd ra rb rc _ he
  refine ⟨f1, hw _ f1 f2 f3 f4 f5 f6, fun d h => ?_, fun h => ?_, fun r h => ?_, fun r h => ?_, fun r h => ?_⟩
  · rw [fieldRd, f5]
    exact hd d h
  · rw [fieldRd, f5]
    exact hn h
  · rw [fieldRa, f4]
    exact h0 r h
  · rw [fieldRb, f3]
    exact h1 r h
  · rw [fieldRc, f2]
    exact h2 r h

theorem add (rd ra rb : Reg) : Statement (.add rd ra rb) := by
  refine of_fields _ 0x01 rd ra rb 0 rfl (fun w g1 g2 g3 g4 g5 g6 => ?_) ?_ ?_ ?_ ?_ ?_
  · simp_all [Word.wellFormed, Word.opAssigned, Word.reservedZero, Word.unusedZero]
  all_goals simp [Instr.dest, Instr.sources]

theorem sub (rd ra rb : Reg) : Statement (.sub rd ra rb) := by
  refine of_fields _ 0x02 rd ra rb 0 rfl (fun w g1 g2 g3 g4 g5 g6 => ?_) ?_ ?_ ?_ ?_ ?_
  · simp_all [Word.wellFormed, Word.opAssigned, Word.reservedZero, Word.unusedZero]
  all_goals simp [Instr.dest, Instr.sources]

theorem mul (rd ra rb : Reg) : Statement (.mul rd ra rb) := by
  refine of_fields _ 0x03 rd ra rb 0 rfl (fun w g1 g2 g3 g4 g5 g6 => ?_) ?_ ?_ ?_ ?_ ?_
  · simp_all [Word.wellFormed, Word.opAssigned, Word.reservedZero, Word.unusedZero]
  all_goals simp [Instr.dest, Instr.sources]

theorem div (rd ra rb : Reg) : Statement (.div rd ra rb) := by
  refine of_fields _ 0x04 rd ra rb 0 rfl (fun w g1 g2 g3 g4 g5 g6 => ?_) ?_ ?_ ?_ ?_ ?_
  · simp_all [Word.wellFormed, Word.opAssigned, Word.reservedZero, Word.unusedZero]
  all_goals simp [Instr.dest, Instr.sources]

theorem mod (rd ra rb : Reg) : Statement (.mod rd ra rb) := by
  refine of_fields _ 0x05 rd ra rb 0 rfl (fun w g1 g2 g3 g4 g5 g6 => ?_) ?_ ?_ ?_ ?_ ?_
  · simp_all [Word.wellFormed, Word.opAssigned, Word.reservedZero, Word.unusedZero]
  all_goals simp [Instr.dest, Instr.sources]

theorem pow (rd ra rb rc : Reg) : Statement (.pow rd ra rb rc) := by
  refine of_fields _ 0x06 rd ra rb rc rfl (fun w g1 g2 g3 g4 g5 g6 => ?_) ?_ ?_ ?_ ?_ ?_
  · simp_all [Word.wellFormed, Word.opAssigned, Word.reservedZero, Word.unusedZero]
  all_goals simp [Instr.dest, Instr.sources]

theorem cmp (ra rb : Reg) : Statement (.cmp ra rb) := by
  refine of_fields _ 0x07 0 ra rb 0 rfl (fun w g1 g2 g3 g4 g5 g6 => ?_) ?_ ?_ ?_ ?_ ?_
  · simp_all [Word.wellFormed, Word.opAssigned, Word.reservedZero, Word.unusedZero]
  all_goals simp [Instr.dest, Instr.sources]

theorem seti (rd : Reg) : Statement (.seti rd) := by
  refine of_fields _ 0x08 rd 0 0 0 rfl (fun w g1 g2 g3 g4 g5 g6 => ?_) ?_ ?_ ?_ ?_ ?_
  · simp_all [Word.wellFormed, Word.opAssigned, Word.reservedZero, Word.unusedZero]
  all_goals simp [Instr.dest, Instr.sources]

end Sys2Proof.Laws.Form
end

