-- ==== Sys2Proof/Tests/Slice0.lean ====
section
/-! SUPPORT. Tests. Expected results come from the spec: the vectors V-* and programs of 95_test_vectors.md, or words and values
written out by hand from the rules cited. The witnesses at the end show, for every statement with hypotheses, inputs that meet
them, one for each clause. -/

namespace Sys2Proof.Tests

open Sys2Proof Sys2Proof.Machine

/-! ## The bench: a small machine -/

/-- The least BAU that the spec allows, its window not at 0. -/
def cfg4 : Config := { lmax := 4, mmioBase := 64, irqLine := 5 }

/-- R^4 − 1, the largest value in four limbs. -/
def top : Int := 10 ^ 24 - 1

/-- An idle machine: B1 = R^4 − 1, B2 = −1, B3 = 1, B4 = 10, B5 = 24, B6 = 23, B7 a negative zero, B8 with a zero top limb,
B9 = −7, B10 = 2, B11 = −(R^4 − 1), B12 = 5, RESULT = 1. -/
def bench : State :=
  let s := [(1, top), (2, -1), (3, 1), (4, 10), (5, 24), (6, 23), (9, -7), (10, 2), (11, -top), (12, 5)].foldl
    (fun (s : State) (p : Reg × Int) => s.writeBack p.1 p.2) { State.resetOf cfg4 with result := 1 }
  (s.setReg 7 { BigReg.zero 4 with sign := .negative }).setReg 8 { BigReg.zero 4 with len := 1 }

/-- The bench after it accepted a command word. -/
def issued (w : Word) : State := bench.accept w

/-- A look at the next state of an outcome. -/
def look {α : Type} (o : Host.Outcome State Fault Refusal) (f : State → α) : Option α :=
  match o with
  | .next t => some (f t)
  | .fault _ => none
  | .refused _ => none

/-- A register written as the spec writes it: sign, len, limbs. -/
def big (sign : Sign) (len : BitVec 16) (limb : List Limb) : BigReg := { sign := sign, len := len, limb := limb }

/-! ## Well-formedness: a term that each check refuses -/

theorem test_ill_opcode_zero : Word.opAssigned 0x00000000 = false ∧ Word.wellFormed 0x00000000 = false := by decide

theorem test_ill_opcode_nine : Word.opAssigned 0x00000009 = false ∧ Word.opAssigned 0x000000FF = false := by decide

theorem test_ill_reserved : Word.reservedZero 0x01000001 = false ∧ Word.wellFormed 0x80000001 = false := by decide

theorem test_ill_unused :
    Word.unusedZero 0x00100001 = false ∧ Word.unusedZero 0x00000107 = false ∧ Word.unusedZero 0x00100007 = false
      ∧ Word.unusedZero 0x00001008 = false ∧ Word.unusedZero 0x00010008 = false ∧ Word.unusedZero 0x00100008 = false := by
  decide

theorem test_well_formed_words :
    Word.wellFormed 0x00021301 = true ∧ Word.wellFormed 0x00FFFF06 = true ∧ Word.wellFormed 0x00054007 = true := by decide

theorem test_ill_config :
    ({ cfg4 with lmax := 3 } : Config).wellFormed = false ∧ ({ cfg4 with lmax := 513 } : Config).wellFormed = false
      ∧ ({ cfg4 with mmioBase := 32 } : Config).wellFormed = false ∧ cfg4.wellFormed = true
      ∧ Config.default.wellFormed = true := by decide

/-! ## Decoding: words written out field by field, RSV RC RB RA RD OP (30_encoding.md R90 to R94) -/

theorem test_decode_add :
    decode (0b00000000#8 ++ 0b0000#4 ++ 0b0010#4 ++ 0b0001#4 ++ 0b0011#4 ++ 0b00000001#8) = .ok (.add 3 1 2) := by rfl

theorem test_decode_sub :
    decode (0b00000000#8 ++ 0b0000#4 ++ 0b1101#4 ++ 0b1110#4 ++ 0b1111#4 ++ 0b00000010#8) = .ok (.sub 15 14 13) := by rfl

theorem test_decode_mul :
    decode (0b00000000#8 ++ 0b0000#4 ++ 0b0010#4 ++ 0b0001#4 ++ 0b0011#4 ++ 0b00000011#8) = .ok (.mul 3 1 2) := by rfl

theorem test_decode_div :
    decode (0b00000000#8 ++ 0b0000#4 ++ 0b0110#4 ++ 0b0101#4 ++ 0b0100#4 ++ 0b00000100#8) = .ok (.div 4 5 6) := by rfl

theorem test_decode_mod :
    decode (0b00000000#8 ++ 0b0000#4 ++ 0b1001#4 ++ 0b1000#4 ++ 0b0111#4 ++ 0b00000101#8) = .ok (.mod 7 8 9) := by rfl

theorem test_decode_pow :
    decode (0b00000000#8 ++ 0b0011#4 ++ 0b0010#4 ++ 0b0001#4 ++ 0b0100#4 ++ 0b00000110#8) = .ok (.pow 4 1 2 3) := by rfl

theorem test_decode_cmp :
    decode (0b00000000#8 ++ 0b0000#4 ++ 0b0101#4 ++ 0b0100#4 ++ 0b0000#4 ++ 0b00000111#8) = .ok (.cmp 4 5) := by rfl

theorem test_decode_seti :
    decode (0b00000000#8 ++ 0b0000#4 ++ 0b0000#4 ++ 0b0000#4 ++ 0b0001#4 ++ 0b00001000#8) = .ok (.seti 1) := by rfl

/-- V-E5 to V-E13. -/
theorem test_decode_vectors :
    decode 0x00000000 = .error .opcodeZero ∧ decode 0x00000009 = .error .unassignedOpcode
      ∧ decode 0x000000FF = .error .unassignedOpcode ∧ decode 0x01000001 = .error .reservedBits
      ∧ decode 0x00100001 = .error .unusedField ∧ decode 0x00000107 = .error .unusedField
      ∧ decode 0x00001008 = .error .unusedField ∧ decode 0x00F00F07 = .error .unusedField
      ∧ decode 0x00FFFF06 = .ok (.pow 15 15 15 15) :=
  ⟨rfl, rfl, rfl, rfl, rfl, rfl, rfl, rfl, rfl⟩

/-- R99, the assembler's spelling. -/
theorem test_asm : asmLine (.pow 4 1 2 3) = "POW B4, B1, B2, B3" ∧ asmLine (.cmp 14 15) = "CMP B14, B15" := by decide

theorem test_table_word :
    decodeTableWord 32 0x00021301 = some (.add 3 1 2) ∧ decodeTableWord 32 0x01000001 = none := by decide

/-! ## The commands -/

/-- V-A8, and the carry chain of V-A4 in the fourth limb. -/
theorem test_add :
    look (exec (.add 13 1 2) bench) (fun t => t.reg 13) = some (big .positive 4 [999998, 999999, 999999, 999999]) := by
  decide

/-- V-A7: R^4 needs five limbs. -/
theorem test_add_overflow :
    look (exec (.add 1 1 3) bench) (fun t => (t.statusWord, t.reg 1)) = some (0x306, bench.reg 1) := by decide

/-- V-S2 in four limbs: a borrow through every limb, and zero limbs stripped. -/
theorem test_sub :
    look (exec (.sub 13 3 12) bench) (fun t => t.reg 13) = some (big .negative 1 [4, 0, 0, 0]) := by decide

/-- V-S10: the destination is both sources; the zero is POSITIVE and every limb cell is cleared. -/
theorem test_sub_self :
    look (exec (.sub 11 11 11) bench) (fun t => t.reg 11) = some (big .positive 0 [0, 0, 0, 0]) := by decide

/-- V-M5 in form: signs differ. -/
theorem test_mul :
    look (exec (.mul 13 9 12) bench) (fun t => t.reg 13) = some (big .negative 1 [35, 0, 0, 0]) := by decide

/-- V-M3: a negative times zero is the canonical zero. -/
theorem test_mul_zero :
    look (exec (.mul 13 9 0) bench) (fun t => t.reg 13) = some (big .positive 0 [0, 0, 0, 0]) := by decide

/-- V-D2: truncation toward zero. -/
theorem test_div :
    look (exec (.div 13 9 10) bench) (fun t => t.reg 13) = some (big .negative 1 [3, 0, 0, 0]) := by decide

/-- V-D13, V-X2: DIVZERO, and OPERAND before it. -/
theorem test_div_errors :
    look (exec (.div 1 9 0) bench) (fun t => (t.statusWord, t.reg 1)) = some (0x406, bench.reg 1)
      ∧ look (exec (.div 1 7 0) bench) (fun t => t.statusWord) = some 0x206 := by decide

/-- V-D2: the remainder takes the dividend's sign. -/
theorem test_mod :
    look (exec (.mod 13 9 10) bench) (fun t => t.reg 13) = some (big .negative 1 [1, 0, 0, 0]) := by decide

/-- V-X6. -/
theorem test_mod_divzero : look (exec (.mod 1 9 0) bench) (fun t => t.statusWord) = some 0x406 := by decide

/-- V-W16, V-W17: 10^23 fits in four limbs, 10^24 does not. -/
theorem test_pow :
    look (exec (.pow 13 4 6 0) bench) (fun t => t.reg 13) = some (big .positive 4 [0, 0, 0, 100000])
      ∧ look (exec (.pow 13 4 5 0) bench) (fun t => t.statusWord) = some 0x306 := by decide

/-- V-X3, V-W12: RC is checked before DOMAIN; a negative exponent is DOMAIN. -/
theorem test_pow_errors :
    look (exec (.pow 1 10 2 7) bench) (fun t => t.statusWord) = some 0x206
      ∧ look (exec (.pow 1 10 2 12) bench) (fun t => t.statusWord) = some 0x506 := by decide

/-- V-W2, V-W19, V-W22, V-W7. -/
theorem test_pow_loop :
    powResult 256 (-2) 3 5 = .ok (-3) ∧ powResult 256 2 1000002 1000003 = .ok 1
      ∧ powResult 256 123456789 7 (10 ^ 12 + 39) = .ok 951986301564 ∧ powResult 256 5 0 1 = .ok 1 :=
  ⟨rfl, rfl, rfl, rfl⟩

/-- V-C1 in form. -/
theorem test_cmp : look (exec (.cmp 9 12) bench) (fun t => t.result) = some 0xFFFFFFFF := by decide

/-- V-C7: RESULT keeps its 1. -/
theorem test_cmp_operand :
    look (exec (.cmp 7 0) bench) (fun t => (t.result, t.statusWord)) = some (1, 0x206) := by decide

/-- V-I5. -/
theorem test_seti :
    look (exec (.seti 13) { bench with pending := some { word := 0xD08, imm := 0x8000000000000000 } }) (fun t => t.reg 13)
      = some (big .negative 4 [775808, 36854, 223372, 9]) := by decide

/-- V-I7: IMM is 64 bits wide. -/
theorem test_seti_wide :
    look (exec (.seti 13) { bench with pending := some { word := 0xD08, imm := 0x00000000FFFFFFFF } }) (fun t => t.reg 13)
      = some (big .positive 2 [967295, 4294, 0, 0]) := by decide

/-- V-X4: ILLEGAL comes first. -/
theorem test_illegal_first :
    look (completeWord 0x01007801 bench) (fun t => (t.statusWord, t.reg 8)) = some (0x106, bench.reg 8) := by decide

/-! ## The pipelines -/

/-- V-A4, V-S2 and V-D5 on limbs, V-D5's digits before stripping, V-M1's transform length. -/
theorem test_limb_units :
    sadd .positive [999999, 999999] .positive [1] = (.positive, [0, 0, 1])
      ∧ sadd .positive [0, 0, 1] .negative [999999, 999999] = (.positive, [1])
      ∧ (divLoop 7 3 (10 ^ 12)).1 = [142857, 142857, 0] ∧ magDivMod [0, 0, 1] [7] = ([142857, 142857], 1)
      ∧ transformLength 1 1 = 2 ∧ transformLength 2 3 = 8 := by
  refine ⟨?_, ?_, ?_, ?_, ?_, ?_⟩ <;> rfl

/-- V-M2 through the pipeline, with an engine that gives the exact coefficients. -/
theorem test_mul_pipeline :
    mulPipeline (fun xs ys k => (convCoeff xs ys k : Rat)) .positive [456789, 123] .positive [654321, 987]
      = (.positive, [635269, 631112, 121932]) := by
  decide +kernel

/-! ## The register window -/

/-- V-H1, V-H2: an access that is not a 32-bit word at a multiple of 4. -/
theorem test_access_refused :
    ((hostRead 0x04 2 bench).hostErr, (hostRead 0x04 2 bench).readData) = (true, [0, 0])
      ∧ ((hostRead 0x06 4 bench).hostErr, (hostRead 0x06 4 bench).readData) = (true, [0, 0, 0, 0]) := by decide

/-- V-H3, V-H12. -/
theorem test_busy_port :
    ((hostRead 0x20 4 (issued 0x108)).hostErr, (hostRead 0x20 4 (issued 0x108)).readData) = (true, [0, 0, 0, 0])
      ∧ ((hostWrite 0x00 (toLanes 0x208) (issued 0x108)).ovr, (hostWrite 0x00 (toLanes 0x208) (issued 0x108)).cmd)
        = (true, 0x108) := by decide

/-- V-H4 at LMAX = 4: LIDX = LMAX is stored, the read refused. -/
theorem test_lidx_at_lmax :
    (hostWrite 0x1C (toLanes 4) bench).lidx = 4
      ∧ (hostRead 0x20 4 (hostWrite 0x1C (toLanes 4) bench)).hostErr = true := by decide

/-- V-H5, V-H6: R is refused, R − 1 written, len unchanged. -/
theorem test_ldata :
    (hostWrite 0x20 (toLanes 1000000) bench).hostErr = true ∧ (hostWrite 0x20 (toLanes 1000000) bench).regs = bench.regs
      ∧ (hostWrite 0x20 (toLanes 999999) bench).reg 0 = big .positive 0 [999999, 0, 0, 0] := by decide

/-- V-H7 at LMAX = 4, V-H8, V-H9. -/
theorem test_lmeta :
    (hostWrite 0x24 (toLanes 0x00000005) bench).hostErr = true
      ∧ (hostWrite 0x24 (toLanes 0x00010001) bench).hostErr = true
      ∧ (hostWrite 0x24 (toLanes 0x80000000) bench).reg 0 = big .negative 0 [0, 0, 0, 0] := by decide

/-- V-H10, V-H11, V-H13, V-H14. -/
theorem test_other_writes :
    hostWrite 0x18 (toLanes 0x10) bench = { bench with hostErr := true }
      ∧ hostWrite 0x08 (toLanes 0x4) bench = { bench with hostErr := true }
      ∧ (hostWrite 0x04 (toLanes 0x1E) { bench.raise .divZero with ovr := true, hostErr := true }).statusWord = 0x400
      ∧ hostWrite 0x28 (toLanes 0) bench = bench :=
  ⟨rfl, rfl, rfl, rfl⟩

/-- V-H15, V-H16: lanes lowest address first. -/
theorem test_constant_reads :
    (hostRead 0x38 4 bench).readData = [0, 0, 0, 0] ∧ (hostRead 0x28 4 bench).readData = [0x54, 0x4E, 0x49, 0x42]
      ∧ (hostRead 0x2C 4 (State.resetOf Config.default)).readData = [0x00, 0x01, 0x10, 0x01]
      ∧ (hostRead 0x30 4 bench).readData = [0x40, 0x42, 0x0F, 0x00] := by decide

/-- V-H17. -/
theorem test_soft_reset : hostWrite 0x08 (toLanes 3) (issued 0x108) = State.resetOf cfg4 := by decide

/-! ## Steps -/

/-- P4, steps 2 to 4: the two orders of a CMD write and the completion of the DIV before it. -/
theorem test_overrun_orders :
    look (Host.Core.run core 2 { issued 0x00001304 with agenda := [writeTurn cfg4 0x00 0, .sequencer] })
        (fun t => State.statusWord t) = some 0x40E
      ∧ look (Host.Core.run core 3 { issued 0x00001304 with agenda := [.sequencer, writeTurn cfg4 0x00 0, .sequencer] })
        (fun t => State.statusWord t) = some 0x106 := by decide

/-- A word placed by `withFetchWord` is the next step's command, from the reset state. -/
theorem test_fetch_word :
    step (State.reset.withFetchWord 32 0x00021301) = exec (.add 3 1 2) (State.reset.accept 0x00021301) := by rfl

theorem test_outside_window :
    step { bench with agenda := [.host (.read 128 4)] } = .fault (.outsideWindow 128) := by rfl

/-! ## Witnesses: inputs that meet the hypotheses of each statement, clause by clause -/

/-- An idle machine of sound registers, for the statements that ask for the invariant. -/
def calm : State := (State.resetOf cfg4).writeBack 3 top

/-- The same machine with an accepted command. -/
def hurried : State := calm.accept 0x00033301

theorem calm_regs (q : Reg) : (calm.reg q).Ok 4 :=
  (State.resetOf cfg4).writeBack_ok 3 top (by decide) (by decide) (State.resetOf_ok cfg4) q

theorem witness_calm_inv (a : List Turn) : ({ calm with agenda := a } : State).Inv :=
  { config := show cfg4.wellFormed = true by decide
    regs := calm_regs
    busy := fun _ h => nomatch h
    named := fun h => nomatch h
    result := .inr (.inl rfl) }

theorem witness_hurried_inv (a : List Turn) : ({ hurried with agenda := a } : State).Inv :=
  { config := show cfg4.wellFormed = true by decide
    regs := calm_regs
    busy := fun _ h => by cases h; exact ⟨rfl, rfl, rfl, rfl⟩
    named := fun h => nomatch h
    result := .inr (.inl rfl) }

theorem witness_EncodeOfDecode : decode 0x00054007 = .ok (.cmp 4 5) := by rfl

theorem witness_WordIsBuiltFromFields : fieldRsv 0x00FFFF06 = 0 := by decide

theorem witness_IllegalWordsComplete :
    Word.wellFormed 0x00000000 = false ∧ Word.wellFormed 0x00FFFF06 = true := by decide

theorem witness_RowsDoNotOverlap :
    ∃ r ∈ opcodeMap, r.covers 0x00021301 = true :=
  ⟨_, List.mem_cons_self, rfl⟩

/-- A word that decodes and a word that does not, each with no turn left and with the sequencer's turn next. -/
theorem witness_StepRunsDecodedCommand :
    hurried.pending = some { word := 0x00033301, imm := 0 } ∧ decode 0x00033301 = .ok (.add 3 3 3) ∧ hurried.agenda = []
      ∧ ({ hurried with agenda := [.sequencer] } : State).agenda = .sequencer :: []
      ∧ (calm.accept 0x00000009).pending = some { word := 0x00000009, imm := 0 }
      ∧ decode 0x00000009 = .error .unassignedOpcode ∧ (calm.accept 0x00000009).agenda = [] :=
  ⟨rfl, rfl, rfl, rfl, rfl, rfl, rfl⟩

/-- The first and the last address of the window, and an idle sequencer's turn. -/
theorem witness_StepTakesHostTurn :
    inWindow cfg4 (.read 64 4) = true ∧ inWindow cfg4 (.write 127 []) = true ∧ calm.pending = none
      ∧ ({ calm with agenda := [.sequencer] } : State).agenda = .sequencer :: [] :=
  ⟨rfl, rfl, rfl, rfl⟩

/-- The addresses just below and just above the window. -/
theorem witness_StepStopsOnlyOutsideWindow :
    step { bench with agenda := [.host (.read 63 4)] } = .fault (.outsideWindow 63)
      ∧ step { bench with agenda := [.host (.write 128 [])] } = .fault (.outsideWindow 128) :=
  ⟨rfl, rfl⟩

theorem witness_NoCommandStaysPending :
    ({ hurried with agenda := [.host (.read 68 4), .hardReset] } : State).HostInWindow := by
  intro a h
  have : a = .read 68 4 := by simpa using h
  subst this
  rfl

/-- B7 is not WF; B1 + B3 = R^4 overflows; B1 + B2 = R^4 − 2 and B1 + B0 = R^4 − 1 fit. -/
theorem witness_AddStoresSum :
    bench.cfg.wellFormed = true ∧ (bench.reg 7).wf 4 = false ∧ (bench.reg 8).wf 4 = false
      ∧ (bench.reg 1).wf 4 = true ∧ (bench.reg 3).wf 4 = true ∧ 4 < nlen (bench.val 1 + bench.val 3)
      ∧ (bench.reg 0).wf 4 = true ∧ nlen (bench.val 1 + bench.val 0) ≤ 4 := by decide

theorem witness_SubStoresDifference :
    bench.cfg.wellFormed = true ∧ (bench.reg 7).wf 4 = false ∧ (bench.reg 1).wf 4 = true ∧ (bench.reg 2).wf 4 = true
      ∧ 4 < nlen (bench.val 1 - bench.val 2) ∧ nlen (bench.val 1 - bench.val 1) ≤ 4 := by decide

theorem witness_MulStoresProduct :
    bench.cfg.wellFormed = true ∧ (bench.reg 7).wf 4 = false ∧ (bench.reg 1).wf 4 = true ∧ (bench.reg 10).wf 4 = true
      ∧ (bench.reg 2).wf 4 = true ∧ 4 < nlen (bench.val 1 * bench.val 10) ∧ nlen (bench.val 1 * bench.val 2) ≤ 4 := by decide

theorem witness_DivStoresQuotient_ModStoresRemainder :
    bench.cfg.wellFormed = true ∧ (bench.reg 7).wf 4 = false ∧ (bench.reg 9).wf 4 = true ∧ (bench.reg 0).wf 4 = true
      ∧ (bench.reg 10).wf 4 = true ∧ bench.val 0 = 0 ∧ bench.val 10 ≠ 0 := by decide

/-- Operands 10, 24 and 23 with modulus 0: R^4 does not fit, 10^23 does; −1 as the exponent. -/
theorem witness_PowStoresPower :
    bench.cfg.wellFormed = true ∧ (bench.reg 7).wf 4 = false ∧ (bench.reg 4).wf 4 = true ∧ (bench.reg 5).wf 4 = true
      ∧ (bench.reg 6).wf 4 = true ∧ (bench.reg 0).wf 4 = true ∧ (bench.reg 2).wf 4 = true ∧ bench.val 2 < 0
      ∧ 0 ≤ bench.val 5 ∧ 4 < nlen (powValue (bench.val 4) (bench.val 5).toNat (bench.val 0))
      ∧ 0 ≤ bench.val 6 ∧ nlen (powValue (bench.val 4) (bench.val 6).toNat (bench.val 0)) ≤ 4 := by decide

theorem witness_CmpSetsResult :
    (bench.reg 7).wf 4 = false ∧ (bench.reg 9).wf 4 = true ∧ (bench.reg 12).wf 4 = true := by decide

theorem witness_SetiStoresImmediate :
    bench.cfg.wellFormed = true ∧ (issued 0x00000D08).pending = some { word := 0x00000D08, imm := 0 } :=
  ⟨rfl, rfl⟩

theorem witness_FailedCommandsArePrecise : ∃ t, completeWord 0x00000000 bench = .next t ∧ t.err = true :=
  ⟨_, rfl, rfl⟩

theorem witness_FirstApplicableErrorIsReported :
    bench.cfg.wellFormed = true ∧ decode 0x01007801 = .error .reservedBits ∧ decode 0x00007104 = .ok (.div 1 7 0)
      ∧ applicableErrors bench (.div 1 7 0) = [.operand, .divZero] ∧ applicableErrors bench (.add 1 1 3) = [.overflow] := by
  refine ⟨rfl, rfl, rfl, ?_, ?_⟩ <;> decide

theorem witness_CommandFrame :
    (∃ t, exec (.add 13 1 2) bench = .next t) ∧ (Instr.add 13 1 2).dest ≠ some 1 ∧ ∀ ra rb, Instr.add 13 1 2 ≠ .cmp ra rb :=
  ⟨⟨_, rfl⟩, by decide, by decide⟩

/-- The destination is a source in one command and a third register in the other; both succeed. -/
theorem witness_AliasingDoesNotMatter :
    (∃ t, exec (withDest 1 (.add 0 1 2)) bench = .next t ∧ t.err = false) ∧ (withDest 1 (.add 0 1 2)).dest = some 1
      ∧ ∃ u, exec (withDest 13 (.add 0 1 2)) bench = .next u :=
  ⟨⟨_, rfl, by decide⟩, rfl, ⟨_, rfl⟩⟩

theorem witness_CommandsKeepRegistersWf :
    calm.cfg.wellFormed = true ∧ (∀ r, (calm.reg r).wf calm.cfg.lmax = true) ∧ ∃ t, exec (.add 3 3 3) calm = .next t :=
  ⟨rfl, by decide, ⟨_, rfl⟩⟩

theorem witness_DivModLaw :
    (∃ t, exec (.div 13 9 10) bench = .next t ∧ t.err = false) ∧ ∃ u, exec (.mod 13 9 10) bench = .next u ∧ u.err = false :=
  ⟨⟨_, rfl, by decide⟩, ⟨_, rfl, by decide⟩⟩

theorem witness_NlenCountsDigits : (-1 : Int) ≠ 0 ∧ nlen (-1) = 1 ∧ nlen 999999 = 1 ∧ nlen 1000000 = 2 := by decide

/-- Two registers of one value whose cells above len differ. -/
theorem witness_ValueIsSignedLimbSum :
    (big .negative 1 [5, 9, 0, 0]).sign = (big .negative 1 [5, 0, 0, 0]).sign
      ∧ (big .negative 1 [5, 9, 0, 0]).len = (big .negative 1 [5, 0, 0, 0]).len
      ∧ ∀ i < 1, (big .negative 1 [5, 9, 0, 0]).cell i = (big .negative 1 [5, 0, 0, 0]).cell i := by decide

theorem witness_EncodingHoldsExactly : 4 ≤ 512 ∧ nlen (-top) ≤ 4 ∧ nlen 0 ≤ 4 := by decide

theorem witness_WfValueDeterminesRegister :
    (big .negative 1 [5, 9, 0, 0]).wf 4 = true ∧ (big .negative 1 [5, 0, 0, 0]).wf 4 = true
      ∧ (big .negative 1 [5, 9, 0, 0]).val = (big .negative 1 [5, 0, 0, 0]).val := by decide

/-- Limb sequences of WF magnitudes, the empty one of zero among them. -/
theorem witness_ComparatorIsSign_SignedAdditionIsExact : NormalLimbs [] ∧ NormalLimbs [0, 1] ∧ NormalLimbs [999999, 999999] := by
  unfold NormalLimbs
  decide

theorem witness_RippleChainsAreExact :
    (∀ l ∈ [0, 1], l < radix) ∧ (∀ l ∈ [999999], l < radix) ∧ magOf [999999] ≤ magOf [0, 1] := by decide

/-- Signs that differ, signs that agree, a zero, and factors other than 0. -/
theorem witness_ResultLengths :
    (1000000 : Int) * (-1) ≤ 0 ∧ 0 ≤ (999999 : Int) * 1 ∧ (0 : Int) * 1 ≤ 0 ∧ (0 : Int) ≤ 0 * 1
      ∧ (1000000 : Int) ≠ 0 ∧ (-1 : Int) ≠ 0 := by decide

/-- The second and the third clause: a value near 3, and a tie between −3 and −2. -/
theorem witness_RoundingIsToNearest :
    |(31 / 10 : Rat) - ((3 : Int) : Rat)| < 1 / 2 ∧ |(-5 / 2 : Rat) - ((-3 : Int) : Rat)| = 1 / 2 := by
  constructor <;> norm_num [abs_lt, abs_of_pos]

/-- An engine that is off by a quarter everywhere meets the contract. -/
theorem witness_MulPipelineIsExact :
    PrecisionContract 4 (fun xs ys k => (convCoeff xs ys k : Rat) + 1 / 4) ∧ NormalLimbs [999999, 999999] ∧ NormalLimbs []
      ∧ [999999, 999999].length ≤ 4 := by
  refine ⟨fun xs ys _ _ _ _ k _ => ?_, ?_, ?_, by decide⟩
  · rw [add_sub_cancel_left]
    norm_num
  · unfold NormalLimbs
    decide
  · unfold NormalLimbs
    decide

theorem witness_TransformIsFourier_EngineComputesProductCoefficients :
    0 < 2 ^ 0 ∧ 7 < 2 ^ 3 ∧ 7 < transformLength [1, 2].length [3, 4, 5].length := by decide

theorem witness_DigitSearchFindsLargest : 142857 < radix ∧ 142857 * 7 ≤ 1000000 ∧ 0 < radix ∧ 0 * 7 ≤ 6 := by decide

theorem witness_DividePipelineIsExact_ExponentBookkeepingIsExact : (∀ l ∈ [0, 0, 1], l < radix) ∧ 0 < magOf [7] := by decide

theorem witness_PowLoopIsClosedForm_PowIsRepeatedMultiplication : 1 ≤ 1 ∧ (-5 : Int) ≠ 0 := by decide

theorem witness_SignedComparatorIsSign :
    (big .negative 1 [5, 9, 0, 0]).wf 4 = true ∧ (big .positive 0 [5, 0, 0, 0]).wf 4 = true := by decide

theorem witness_ByteLanesAreLittleEndian : 3 < 4 := by decide

/-- LIDX = LMAX − 1 is in range and LIDX = LMAX is not; a pending command refuses both ports. -/
theorem witness_HostReadsAnswer :
    ({ calm with lidx := 3 } : State).pending = none ∧ ({ calm with lidx := 3 } : State).lidx.toNat < calm.cfg.lmax
      ∧ calm.cfg.lmax ≤ ({ calm with lidx := 4 } : State).lidx.toNat ∧ hurried.pending ≠ none := by decide

theorem witness_CmdWrite :
    calm.pending = none ∧ hostWrite 0x00 (toLanes 0x108) calm = calm.accept 0x108 ∧ hurried.pending ≠ none :=
  ⟨rfl, rfl, by decide⟩

/-- The largest values that LREG and LIDX take and the least that they refuse; LIDX at LMAX − 1 and at LMAX. -/
theorem witness_PlainWindowWritesStore :
    (15 : Word) = BitVec.ofNat 32 (15 : Reg).val ∧ 2 ^ 4 ≤ (16 : Word).toNat
      ∧ (65535 : Word) = BitVec.ofNat 32 (65535 : BitVec 16).toNat ∧ 2 ^ 16 ≤ (65536 : Word).toNat
      ∧ calm.pending = none ∧ ({ calm with lidx := 3 } : State).lidx.toNat < calm.cfg.lmax
      ∧ calm.cfg.lmax ≤ ({ calm with lidx := 4 } : State).lidx.toNat := by decide

theorem witness_LdataWriteStoresOneCell :
    (∀ r, (calm.reg r).limb.length = calm.cfg.lmax) ∧ calm.pending = none ∧ calm.lidx.toNat < calm.cfg.lmax
      ∧ (999999 : Word).toNat < radix ∧ radix ≤ (1000000 : Word).toNat
      ∧ calm.cfg.lmax ≤ ({ calm with lidx := 4 } : State).lidx.toNat ∧ hurried.pending ≠ none :=
  ⟨fun r => (calm_regs r).1, by decide⟩

/-- len = LMAX is accepted, len = LMAX + 1 and bits 16 and 30 are refused. -/
theorem witness_LmetaWriteSetsSignAndLen :
    calm.pending = none ∧ calm.lidx.toNat < calm.cfg.lmax ∧ (0x80000004 : Word).toNat / 2 ^ 16 % 2 ^ 15 = 0 ∧ (0x80000004 : Word).toNat % 2 ^ 16 ≤ calm.cfg.lmax
      ∧ calm.cfg.lmax < (0x00000005 : Word).toNat % 2 ^ 16 ∧ (0x00010001 : Word).toNat / 2 ^ 16 % 2 ^ 15 ≠ 0
      ∧ (0x40000001 : Word).toNat / 2 ^ 16 % 2 ^ 15 ≠ 0 := by decide

/-- One refused and one answered access for each case of R72, at the boundary. -/
theorem witness_RefusedAccessesSetHosterr :
    RefusedRead bench 0x04 2 ∧ RefusedRead bench 0x06 4 ∧ RefusedRead hurried 0x24 4
      ∧ RefusedRead { bench with lidx := 4 } 0x20 4 ∧ ¬ RefusedRead { bench with lidx := 3 } 0x20 4 := by
  refine ⟨.inl (by decide), .inl (by decide), .inr (.inl (by decide)), .inr (.inr (by decide)), ?_⟩
  unfold RefusedRead
  decide

theorem witness_RefusedWrites :
    RefusedWrite bench 0x20 1000000 ∧ RefusedWrite bench 0x24 5 ∧ RefusedWrite bench 0x18 16
      ∧ RefusedWrite bench 0x1C 65536 ∧ RefusedWrite bench 0x08 4 := by
  simp [RefusedWrite, radix, bench, State.writeBack, State.setReg, State.resetOf, cfg4]

theorem witness_AnsweredWrites :
    ¬ RefusedWrite bench 0x20 999999 ∧ ¬ RefusedWrite bench 0x24 4 ∧ ¬ RefusedWrite bench 0x18 15
      ∧ ¬ RefusedWrite bench 0x1C 65535 ∧ ¬ RefusedWrite bench 0x08 1 := by
  simp [RefusedWrite, radix, bench, State.writeBack, State.setReg, State.resetOf, cfg4]

/-- A refused and an answered read of one offset, and the first and the last offset of the writes. -/
theorem witness_ReadsAndRepeatedWritesAreHarmless :
    RefusedRead hurried 0x20 4 ∧ ¬ RefusedRead calm 0x20 4 ∧ 0x20 < 64 ∧ 0x10 ≤ 0x10 ∧ 0x24 ≤ 0x24 := by
  refine ⟨.inr (.inl (by decide)), ?_, by decide⟩
  unfold RefusedRead
  decide

/-- A write that is dropped, and the soft reset by 2 and by 3. -/
theorem witness_PendingCommandLocksTheMachine :
    hurried.Inv ∧ hurried.pending = some { word := 0x00033301, imm := 0 }
      ∧ (∃ t, hostTurn (.write (cfg4.mmioBase + 0x00) (toLanes 1)) hurried = .next t)
      ∧ (∃ t, hostTurn (.write (cfg4.mmioBase + 0x08) (toLanes 2)) hurried = .next t)
      ∧ ∃ t, hostTurn (.write (cfg4.mmioBase + 0x08) (toLanes 3)) hurried = .next t :=
  ⟨witness_hurried_inv [], rfl, ⟨_, rfl⟩, ⟨_, rfl⟩, ⟨_, rfl⟩⟩

theorem witness_HostWritesCommuteWithCompletion :
    hurried.pending = some { word := 0x00033301, imm := 0 } ∧ ∃ t, sequencerTurn hurried = .next t :=
  ⟨rfl, ⟨_, rfl⟩⟩

theorem witness_LoadProcedureStoresValue :
    ({ calm with agenda := loadTurns cfg4 3 (-1000001) ++ [.sequencer] } : State).Inv ∧ calm.pending = none
      ∧ nlen (-1000001) ≤ calm.cfg.lmax ∧ nlen (-top) ≤ calm.cfg.lmax ∧ nlen 0 ≤ calm.cfg.lmax :=
  ⟨witness_calm_inv _, rfl, by decide, by decide, by decide⟩

theorem witness_HardResetLeavesResetState :
    ({ hurried with agenda := [.hardReset, .sequencer] } : State).agenda = .hardReset :: [.sequencer] := by rfl

/-- IRQ rises at a completion with IE set, and at a CTRL write that sets IE while DONE is 1. -/
theorem witness_IrqRisesOnlyOnCompletionOrEnable :
    look (step { hurried with ie := true }) State.irq = some true ∧ State.irq { hurried with ie := true } = false
      ∧ look (step { calm with done := true, agenda := [writeTurn cfg4 0x08 1] }) State.irq = some true
      ∧ State.irq { calm with done := true, agenda := [writeTurn cfg4 0x08 1] } = false := by decide

theorem witness_InvariantAtReset : cfg4.wellFormed = true := by decide

theorem witness_StepKeepsInvariant : hurried.Inv ∧ ∃ t, step hurried = .next t :=
  ⟨witness_hurried_inv [], ⟨_, rfl⟩⟩

end Sys2Proof.Tests
end

section
/-! Proofs about the state (10_state.md): the value of a register, the destination of a command, and the plain registers of the
window. -/

namespace Sys2Proof.Machine

/-! ### The destination of a command (10_state.md R26) -/

/-- What the command template does does not depend on the destination: one error for all of them, or one value. -/
theorem State.compute_dest_cases (s : State) (srcs : List Reg) (o : Except ErrCode Int) :
    (∃ c, ∀ d, s.compute srcs d o = s.raise c) ∨ ∃ v, ∀ d, s.compute srcs d o = (s.writeBack d v).complete := by
  by_cases h : ∀ r ∈ srcs, s.Wf r
  · match o with
    | .error c => exact .inl ⟨c, fun d => s.compute_of_error srcs d c h⟩
    | .ok v =>
      by_cases hv : nlen v ≤ s.cfg.lmax
      · exact .inr ⟨v, fun d => s.compute_of_fits srcs d v h hv⟩
      · exact .inl ⟨.overflow, fun d => s.compute_of_overflow srcs d v h (by omega)⟩
  · exact .inl ⟨.operand, fun d => s.compute_of_badSource srcs d o h⟩

/-- Everything a command can do, said for all destinations at once: one error, one value written back, or, with no destination,
one RESULT. -/
theorem exec_withDest_cases (i : Instr) (s : State) :
    (∃ c, ∀ d, exec (withDest d i) s = .next (s.raise c))
      ∨ (∃ v, ∀ d, exec (withDest d i) s = .next (s.writeBack d v).complete)
      ∨ ∃ w, ∀ d, (withDest d i).dest = none ∧ exec (withDest d i) s = .next { s with result := w }.complete := by
  have ofCompute : ∀ srcs o, (∀ d, exec (withDest d i) s = .next (s.compute srcs d o)) →
      (∃ c, ∀ d, exec (withDest d i) s = .next (s.raise c))
        ∨ ∃ v, ∀ d, exec (withDest d i) s = .next (s.writeBack d v).complete := by
    intro srcs o he
    rcases s.compute_dest_cases srcs o with ⟨c, hc⟩ | ⟨v, hv⟩
    · exact .inl ⟨c, fun d => by rw [he, hc]⟩
    · exact .inr ⟨v, fun d => by rw [he, hv]⟩
  rw [← or_assoc]
  cases i with
  | add _ ra rb => exact .inl (ofCompute _ _ fun _ => rfl)
  | sub _ ra rb => exact .inl (ofCompute _ _ fun _ => rfl)
  | mul _ ra rb => exact .inl (ofCompute _ _ fun _ => rfl)
  | div _ ra rb => exact .inl (ofCompute _ _ fun _ => rfl)
  | mod _ ra rb => exact .inl (ofCompute _ _ fun _ => rfl)
  | pow _ ra rb rc => exact .inl (ofCompute _ _ fun _ => rfl)
  | cmp ra rb =>
    rcases exec_cases (.cmp ra rb) s with ⟨c, _, h⟩ | ⟨rd, v, hd, _⟩ | ⟨_, _, _, h⟩
    · exact .inl (.inl ⟨c, fun _ => h⟩)
    · cases hd
    · exact .inr ⟨_, fun _ => ⟨rfl, h⟩⟩
  | seti _ => exact .inl (.inr ⟨immValue s.capturedImm, fun _ => rfl⟩)

/-- Settles O22: for all destinations a command raises one error, writes back one value, or sets one RESULT. -/
theorem aliasingDoesNotMatter : Obligations.AliasingDoesNotMatter := by
  intro i d e s t u ht hu
  rcases exec_withDest_cases i s with ⟨c, h⟩ | ⟨v, h⟩ | ⟨w, h⟩
  · rw [h] at ht hu
    cases ht
    cases hu
    simp
  · rw [h] at ht hu
    cases ht
    cases hu
    simp
  · obtain ⟨hdest, hd⟩ := h d
    obtain ⟨_, he⟩ := h e
    rw [hd] at ht
    rw [he] at hu
    cases ht
    cases hu
    simp [hdest]

/-! ### The value of a register (10_state.md R22) -/

/-- The number of the first n limb cells is their sum by position; a cell beyond the list counts as 0. -/
theorem magOf_take_eq_sum (cells : List Limb) (n : Nat) :
    magOf ((cells.take n).map BitVec.toNat) = ∑ i ∈ Finset.range n, (cells.getD i 0).toNat * radix ^ i := by
  induction n generalizing cells with
  | zero => simp
  | succ n ih =>
    cases cells with
    | nil => simp
    | cons l ls =>
      simp only [List.take_succ_cons, List.map_cons, magOf_cons, ih, Finset.sum_range_succ', Finset.mul_sum,
        List.getD_cons_succ, List.getD_cons_zero, pow_succ, pow_zero, mul_one]
      rw [add_comm]
      congr 1
      exact Finset.sum_congr rfl fun i _ => by ring

theorem BigReg.mag_eq_sum (b : BigReg) :
    b.mag = ∑ i ∈ Finset.range b.len.toNat, (b.cell i).toNat * radix ^ i :=
  magOf_take_eq_sum b.limb b.len.toNat

/-- The magnitude depends on len and the cells below it only. -/
theorem BigReg.mag_congr {b c : BigReg} (hlen : c.len = b.len) (hcell : ∀ i < b.len.toNat, c.cell i = b.cell i) :
    c.mag = b.mag := by
  rw [b.mag_eq_sum, c.mag_eq_sum, hlen]
  exact Finset.sum_congr rfl fun i hi => by rw [hcell i (Finset.mem_range.mp hi)]

theorem Sign.factor_eq_ite (g : Sign) : g.factor = if g = .negative then -1 else 1 := by
  cases g <;> rfl

/-- Settles O26, by the sum form of the magnitude. -/
theorem valueIsSignedLimbSum : Obligations.ValueIsSignedLimbSum := by
  intro b
  refine ⟨b.mag_eq_sum, ?_, fun c hsign hlen hcell => ?_⟩
  · rw [BigReg.val, Sign.factor_eq_ite]
  · rw [BigReg.val, BigReg.val, hsign, BigReg.mag_congr hlen hcell]

/-! ### CTRL (10_state.md R32) -/

/-- The bits of a word from k upwards are not all 0 exactly when the word is at least 2^k. -/
theorem extractLsb'_high_ne_zero_iff (v : Word) (k n : Nat) (h : 32 ≤ k + n) : v.extractLsb' k n ≠ 0 ↔ 2 ^ k ≤ v.toNat := by
  have hlt : v.toNat / 2 ^ k < 2 ^ n := by
    rw [Nat.div_lt_iff_lt_mul (by positivity), ← pow_add, add_comm]
    exact v.isLt.trans_le (Nat.pow_le_pow_right (by decide) h)
  rw [ne_eq, ← BitVec.toNat_inj, BitVec.extractLsb'_toNat, Nat.shiftRight_eq_div_pow, Nat.mod_eq_of_lt hlt]
  simp [Nat.div_eq_zero_iff]

theorem writeCtrl_of_refused (v : Word) (s : State) (h : 4 ≤ v.toNat) : writeCtrl v s = s.refuse :=
  if_pos ((extractLsb'_high_ne_zero_iff v 2 30 (by decide)).mpr h)

theorem writeCtrl_of_lt (v : Word) (s : State) (h : v.toNat < 4) :
    writeCtrl v s = if 2 ≤ v.toNat then s.resetBau else { s with ie := decide (v.toNat = 1) } := by
  have hhigh : ¬ v.extractLsb' 2 30 ≠ 0 := fun hne =>
    absurd ((extractLsb'_high_ne_zero_iff v 2 30 (by decide)).mp hne) (by omega)
  rw [writeCtrl, if_neg hhigh]
  have hv : v = BitVec.ofNat 32 v.toNat := by simp
  generalize v.toNat = n at h hv
  subst hv
  interval_cases n <;> rfl

theorem State.ctrlWord_eq_ite (s : State) : s.ctrlWord = if s.ie then 1 else 0 := by
  cases h : s.ie <;> simp [State.ctrlWord, h]

/-- Settles O48: the write by the three ranges of the word, the read by `State.ctrlWord_eq_ite`. -/
theorem ctrlWriteResetsOrSetsEnable : Obligations.CtrlWriteResetsOrSetsEnable := by
  intro s v
  constructor
  · rw [hostWrite_toLanes 0x08 v s (by decide)]
    change writeCtrl v s = _
    split_ifs with h4 h2
    · exact writeCtrl_of_refused v s h4
    · rw [writeCtrl_of_lt v s (by omega), if_pos h2]
      rfl
    · rw [writeCtrl_of_lt v s (by omega), if_neg h2]
  · rw [hostRead_word 0x08 s (by decide), ← s.ctrlWord_eq_ite]
    rfl

/-! ### The plain registers of the window (10_state.md R40, R41, R44) -/

theorem writeLreg_of_le (v : Word) (s : State) (h : 2 ^ 4 ≤ v.toNat) : writeLreg v s = s.refuse :=
  if_pos ((extractLsb'_high_ne_zero_iff v 4 28 (by decide)).mpr h)

theorem writeLreg_ofNat (r : Reg) (s : State) : writeLreg (BitVec.ofNat 32 r.val) s = { s with lreg := r } := by
  have h : (BitVec.ofNat 32 r.val).extractLsb' 4 28 = 0 ∧ ((BitVec.ofNat 32 r.val).extractLsb' 0 4).toFin = r := by
    revert r
    decide
  rw [writeLreg, if_neg (not_not.mpr h.1), h.2]

theorem writeLidx_of_le (v : Word) (s : State) (h : 2 ^ 16 ≤ v.toNat) : writeLidx v s = s.refuse :=
  if_pos ((extractLsb'_high_ne_zero_iff v 16 16 (by decide)).mpr h)

theorem writeLidx_ofNat (i : BitVec 16) (s : State) : writeLidx (BitVec.ofNat 32 i.toNat) s = { s with lidx := i } := by
  have hlt := i.isLt
  have hi : (BitVec.ofNat 32 i.toNat).toNat = i.toNat := by
    rw [BitVec.toNat_ofNat]
    omega
  have hlow : (BitVec.ofNat 32 i.toNat).extractLsb' 0 16 = i := by
    apply BitVec.eq_of_toNat_eq
    rw [BitVec.extractLsb'_toNat, hi, Nat.shiftRight_zero, Nat.mod_eq_of_lt hlt]
  rw [writeLidx, if_neg, hlow]
  rw [extractLsb'_high_ne_zero_iff _ 16 16 (by decide), hi]
  omega

/-- The LDATA port is refused with LIDX ≥ LMAX, and answers when idle with LIDX < LMAX (20_memory.md R65, R66). -/
theorem State.ldataRefused_of_le (s : State) (h : s.cfg.lmax ≤ s.lidx.toNat) : s.ldataRefused = true := by
  simp [State.ldataRefused, h]

theorem State.ldataRefused_of_idle (s : State) (hp : s.pending = Option.none) (h : s.lidx.toNat < s.cfg.lmax) :
    s.ldataRefused = false := by
  simp [State.ldataRefused, State.busy, hp, h]

theorem writeLdata_of_refused (v : Word) (s : State) (h : s.ldataRefused = true) : writeLdata v s = s.refuse :=
  if_pos h

theorem hostRead_ldata (s : State) :
    hostRead 0x20 4 s = { (readLdata s).2 with readData := toLanes (readLdata s).1 } :=
  hostRead_word 0x20 s (by decide)

/-- A write to RESULT, ID, PARAM, RADIX or a reserved offset changes nothing (10_state.md R44). -/
theorem hostWrite_ignored (v : Word) (s : State) :
    ∀ off ∈ [0x0C, 0x28, 0x2C, 0x30, 0x34, 0x38, 0x3C], hostWrite off (toLanes v) s = s := by
  have hreg : ∀ off ∈ [0x0C, 0x28, 0x2C, 0x30, 0x34, 0x38, 0x3C],
      off % 4 = 0 ∧ mmioAt off ∈ [MmioReg.result, .id, .param, .radix, .reserved] := by decide
  intro off hoff
  obtain ⟨halign, hmem⟩ := hreg off hoff
  rw [hostWrite_toLanes off v s halign]
  generalize mmioAt off = r at hmem
  fin_cases hmem <;> rfl

/-- A reserved offset reads 0, with no other effect (10_state.md R44). -/
theorem hostRead_reserved (s : State) :
    ∀ off ∈ [0x34, 0x38, 0x3C], hostRead off 4 s = { s with readData := toLanes 0 } := by
  have hreg : ∀ off ∈ [0x34, 0x38, 0x3C], off % 4 = 0 ∧ mmioAt off = .reserved := by decide
  intro off hoff
  obtain ⟨halign, hres⟩ := hreg off hoff
  rw [hostRead_word off s halign, hres]
  rfl

/-- Settles O49, register by register. -/
theorem plainWindowWritesStore : Obligations.PlainWindowWritesStore := by
  intro s v
  refine ⟨hostWrite_toLanes 0x10 v s rfl, hostWrite_toLanes 0x14 v s rfl, ?lreg, ?lregRefused, ?lidx, ?lidxRefused,
    rfl, rfl, ?ldata, ?ldataRefused, hostWrite_ignored v s, hostRead_reserved s⟩
  case lreg =>
    rintro r rfl
    exact ⟨(hostWrite_toLanes 0x18 _ s rfl).trans (writeLreg_ofNat r s),
      congrArg State.readData (hostRead_word 0x18 { s with lreg := r } rfl)⟩
  case lregRefused =>
    exact fun h => (hostWrite_toLanes 0x18 v s rfl).trans (writeLreg_of_le v s h)
  case lidx =>
    rintro i rfl
    refine ⟨(hostWrite_toLanes 0x1C _ s rfl).trans (writeLidx_ofNat i s), ?_⟩
    rw [hostRead_word 0x1C _ rfl, BitVec.ofNat_toNat]
    rfl
  case lidxRefused =>
    exact fun h => (hostWrite_toLanes 0x1C v s rfl).trans (writeLidx_of_le v s h)
  case ldata =>
    intro hp hi
    rw [hostRead_ldata, readLdata_of_answered s (s.ldataRefused_of_idle hp hi), BitVec.ofNat_toNat]
  case ldataRefused =>
    intro hle
    have href := s.ldataRefused_of_le hle
    refine ⟨(hostWrite_toLanes 0x20 v s rfl).trans (writeLdata_of_refused v s href), ?_⟩
    rw [hostRead_ldata, readLdata_of_refused s href]
    rfl

end Sys2Proof.Machine
end

section
/-! Proofs about the register window (20_memory.md): what every host read answers, what the writes to the LDATA and LMETA ports
do, and which accesses are refused. -/

namespace Sys2Proof.Machine

/-! ### Words as numbers -/

/-- A concatenation as a number. -/
theorem toNat_append_eq_add {m n : Nat} (x : BitVec m) (y : BitVec n) : (x ++ y).toNat = x.toNat * 2 ^ n + y.toNat := by
  rw [BitVec.toNat_append, ← Nat.shiftLeft_add_eq_or_of_lt y.isLt, Nat.shiftLeft_eq]

/-- A field of a word as a number. -/
theorem toNat_extractLsb'_eq_div_mod (v : Word) (k n : Nat) : (v.extractLsb' k n).toNat = v.toNat / 2 ^ k % 2 ^ n := by
  rw [BitVec.extractLsb'_toNat, Nat.shiftRight_eq_div_pow]

/-- STATUS as the sum of its fields, each at its place (10_state.md R31). -/
theorem State.statusWord_eq_ofNat (s : State) :
    s.statusWord = BitVec.ofNat 32
      (2 ^ 8 * s.errCode.bits.toNat + 2 ^ 4 * s.hostErr.toNat + 2 ^ 3 * s.ovr.toNat + 2 ^ 2 * s.err.toNat
        + 2 * s.done.toNat + s.busy.toNat) := by
  refine (BitVec.toNat_eq_nat.mp ?_).2
  simp only [State.statusWord, toNat_append_eq_add, BitVec.toNat_ofBool, BitVec.ofNat_eq_ofNat, BitVec.toNat_ofNat]
  omega

/-- LMETA as the sum of its fields (10_state.md R43). -/
theorem BigReg.metaWord_eq_ofNat (b : BigReg) :
    b.metaWord = BitVec.ofNat 32 (2 ^ 31 * b.sign.toBit.toNat + b.len.toNat) := by
  refine (BitVec.toNat_eq_nat.mp ?_).2
  simp only [BigReg.metaWord, toNat_append_eq_add, BitVec.ofNat_eq_ofNat, BitVec.toNat_ofNat]
  omega

/-- PARAM as a number (10_state.md R37). -/
theorem paramWord_eq_ofNat (cfg : Config) : paramWord cfg = BitVec.ofNat 32 (0x01100000 + cfg.lmax % 2 ^ 16) := by
  refine (BitVec.toNat_eq_nat.mp ?_).2
  simp only [paramWord, toNat_append_eq_add, BitVec.ofNat_eq_ofNat, BitVec.toNat_ofNat]
  omega

/-! ### Reads (20_memory.md R65, R67, R69) -/

theorem State.busy_iff (s : State) : s.busy = true ↔ s.pending ≠ Option.none :=
  Option.isSome_iff_ne_none

theorem State.busy_of_idle (s : State) (hp : s.pending = Option.none) : s.busy = false := by
  rw [State.busy, hp, Option.isSome_none]

/-- When an LDATA access is refused (20_memory.md R65, R66). -/
theorem State.ldataRefused_iff (s : State) :
    s.ldataRefused = true ↔ s.pending ≠ Option.none ∨ s.cfg.lmax ≤ s.lidx.toNat := by
  rw [State.ldataRefused, Bool.or_eq_true, s.busy_iff, decide_eq_true_iff]

/-- A 32-bit read answers the word and leaves the state that the dispatch gives. -/
theorem hostRead_of_mmioRead {off : Nat} {s t : State} {w : Word} (halign : off % 4 = 0)
    (h : mmioRead (mmioAt off) s = (w, t)) : hostRead off 4 s = { t with readData := toLanes w } := by
  rw [hostRead_word off s halign, h]

theorem hostRead_ldata_of_answered (s : State) (hp : s.pending = Option.none) (hi : s.lidx.toNat < s.cfg.lmax) :
    hostRead 0x20 4 s
      = { s with readData := toLanes (BitVec.ofNat 32 ((s.reg s.lreg).cell s.lidx.toNat).toNat) } := by
  rw [BitVec.ofNat_toNat]
  exact hostRead_of_mmioRead rfl (readLdata_of_answered s (s.ldataRefused_of_idle hp hi))

theorem hostRead_ldata_of_refused (s : State) (h : s.pending ≠ Option.none ∨ s.cfg.lmax ≤ s.lidx.toNat) :
    hostRead 0x20 4 s = { s with hostErr := true, readData := toLanes 0 } :=
  hostRead_of_mmioRead (off := 0x20) (t := s.refuse) rfl (readLdata_of_refused s (s.ldataRefused_iff.mpr h))

theorem hostRead_lmeta_of_idle (s : State) (hp : s.pending = Option.none) :
    hostRead 0x24 4 s = { s with readData := toLanes (s.reg s.lreg).metaWord } :=
  hostRead_of_mmioRead rfl (readLmeta_of_idle s (s.busy_of_idle hp))

theorem hostRead_lmeta_of_busy (s : State) (hp : s.pending ≠ Option.none) :
    hostRead 0x24 4 s = { s with hostErr := true, readData := toLanes 0 } :=
  hostRead_of_mmioRead (off := 0x24) (t := s.refuse) rfl (readLmeta_of_busy s (s.busy_iff.mpr hp))

/-- Settles O44, register by register of the dispatch; STATUS, CTRL, LMETA and PARAM by their number forms. -/
theorem hostReadsAnswer : Obligations.HostReadsAnswer := by
  intro s
  refine ⟨hostRead_word 0x00 s rfl, ?status, ?ctrl, hostRead_word 0x0C s rfl, hostRead_word 0x10 s rfl,
    hostRead_word 0x14 s rfl, hostRead_word 0x18 s rfl, ?lidx, hostRead_ldata_of_answered s,
    hostRead_ldata_of_refused s,
    ?lmeta, hostRead_lmeta_of_busy s, hostRead_word 0x28 s rfl, ?param, hostRead_word 0x30 s rfl, ?reserved⟩
  case status =>
    rw [← s.statusWord_eq_ofNat]
    exact hostRead_word 0x04 s rfl
  case ctrl =>
    have hctrl : s.ctrlWord = BitVec.ofNat 32 s.ie.toNat := by
      rw [s.ctrlWord_eq_ite]
      cases s.ie <;> rfl
    rw [← hctrl]
    exact hostRead_word 0x08 s rfl
  case lidx =>
    rw [BitVec.ofNat_toNat]
    exact hostRead_word 0x1C s rfl
  case lmeta =>
    intro hp
    rw [← BigReg.metaWord_eq_ofNat]
    exact hostRead_lmeta_of_idle s hp
  case param =>
    rw [← paramWord_eq_ofNat]
    exact hostRead_word 0x2C s rfl
  case reserved =>
    intro off hoff
    exact hostRead_reserved s off (by simpa using hoff)

/-! ### The LDATA port (20_memory.md R66) -/

theorem hostWrite_ldata (v : Word) (s : State) : hostWrite 0x20 (toLanes v) s = writeLdata v s :=
  hostWrite_toLanes 0x20 v s rfl

/-- The three refusals of an LDATA write. -/
theorem writeLdata_of_refusal (v : Word) (s : State)
    (h : s.pending ≠ Option.none ∨ s.cfg.lmax ≤ s.lidx.toNat ∨ radix ≤ v.toNat) : writeLdata v s = s.refuse := by
  rw [← or_assoc, ← s.ldataRefused_iff] at h
  by_cases href : s.ldataRefused = true
  · exact writeLdata_of_refused v s href
  · rw [writeLdata, if_neg href, if_pos (h.resolve_left href)]

theorem writeLdata_of_accepted (v : Word) (s : State) (hp : s.pending = Option.none) (hi : s.lidx.toNat < s.cfg.lmax)
    (hv : v.toNat < radix) :
    writeLdata v s = s.setReg s.lreg
      { s.reg s.lreg with limb := (s.reg s.lreg).limb.set s.lidx.toNat (v.extractLsb' 0 20) } := by
  rw [writeLdata, if_neg (by simp [s.ldataRefused_of_idle hp hi]), if_neg (not_le.mpr hv)]

/-- A limb value passes through the 20 bits of a cell unchanged. -/
theorem toNat_extractLsb'_of_lt_radix (v : Word) (hv : v.toNat < radix) : (v.extractLsb' 0 20).toNat = v.toNat := by
  rw [radix] at hv
  rw [toNat_extractLsb'_eq_div_mod]
  omega

theorem BigReg.cell_set_same (b : BigReg) (i : Nat) (x : Limb) (h : i < b.limb.length) :
    { b with limb := b.limb.set i x }.cell i = x := by
  rw [BigReg.cell, List.getD_eq_getElem?_getD, List.getElem?_set_self h, Option.getD_some]

theorem BigReg.cell_set_of_ne (b : BigReg) (i j : Nat) (x : Limb) (h : j ≠ i) :
    { b with limb := b.limb.set i x }.cell j = b.cell j := by
  rw [BigReg.cell, List.getD_eq_getElem?_getD, List.getElem?_set_ne h.symm, BigReg.cell, List.getD_eq_getElem?_getD]

/-- Settles O50: the write is a refusal or one `setReg` of B[LREG] with one cell set. -/
theorem ldataWriteStoresOneCell : Obligations.LdataWriteStoresOneCell := by
  rintro s t v hcells rfl
  rw [hostWrite_ldata]
  refine ⟨writeLdata_of_refusal v s, fun hp hi hv => ?_⟩
  rw [writeLdata_of_accepted v s hp hi hv]
  refine ⟨rfl, ?cell, fun r i hne => ?others, fun r => ?frame⟩
  case cell =>
    rw [State.reg_setReg_same, BigReg.cell_set_same _ _ _ (by rwa [hcells]), toNat_extractLsb'_of_lt_radix v hv]
  case others =>
    by_cases hr : r = s.lreg
    · subst hr
      rw [State.reg_setReg_same, BigReg.cell_set_of_ne _ _ _ _ (hne.resolve_left (not_not.mpr rfl))]
    · rw [State.reg_setReg_of_ne s _ _ _ hr]
  case frame =>
    by_cases hr : r = s.lreg
    · subst hr
      simp
    · simp [State.reg_setReg_of_ne s _ _ _ hr]

/-! ### The LMETA port (20_memory.md R68) -/

theorem hostWrite_lmeta (v : Word) (s : State) : hostWrite 0x24 (toLanes v) s = writeLmeta v s :=
  hostWrite_toLanes 0x24 v s rfl

/-- Bits [30:16] of a written word are not all 0. -/
theorem metaReserved_ne_zero_iff (v : Word) : v.extractLsb' 16 15 ≠ 0 ↔ v.toNat / 2 ^ 16 % 2 ^ 15 ≠ 0 := by
  rw [ne_eq, ← BitVec.toNat_inj, toNat_extractLsb'_eq_div_mod]
  rfl

theorem metaLen_toNat (v : Word) : (v.extractLsb' 0 16).toNat = v.toNat % 2 ^ 16 := by
  rw [toNat_extractLsb'_eq_div_mod, pow_zero, Nat.div_one]

/-- The three refusals of an LMETA write. -/
theorem writeLmeta_of_refusal (v : Word) (s : State)
    (h : s.pending ≠ Option.none ∨ v.toNat / 2 ^ 16 % 2 ^ 15 ≠ 0 ∨ s.cfg.lmax < v.toNat % 2 ^ 16) :
    writeLmeta v s = s.refuse := by
  rw [← s.busy_iff, ← metaReserved_ne_zero_iff, ← metaLen_toNat] at h
  unfold writeLmeta
  split_ifs with hbusy hres hlen
  · rfl
  · rfl
  · rfl
  · exact absurd ((h.resolve_left hbusy).resolve_left hres) hlen

/-- The sign that bit 31 stands for. -/
theorem Sign.ofBit_extractLsb' (v : Word) :
    Sign.ofBit (v.extractLsb' 31 1) = if 2 ^ 31 ≤ v.toNat then .negative else .positive := by
  have hbit : ∀ b : BitVec 1, b = 1 ↔ b ≠ 0 := by decide
  simp only [Sign.ofBit, hbit, extractLsb'_high_ne_zero_iff v 31 1 (by decide)]

theorem writeLmeta_of_accepted (v : Word) (s : State) (hp : s.pending = Option.none)
    (hres : v.toNat / 2 ^ 16 % 2 ^ 15 = 0) (hlen : v.toNat % 2 ^ 16 ≤ s.cfg.lmax) :
    writeLmeta v s = s.setReg s.lreg { s.reg s.lreg with
      sign := if 2 ^ 31 ≤ v.toNat then .negative else .positive, len := BitVec.ofNat 16 (v.toNat % 2 ^ 16) } := by
  have hres' : ¬ v.extractLsb' 16 15 ≠ 0 := fun h => (metaReserved_ne_zero_iff v).mp h hres
  rw [writeLmeta, if_neg (by simp [s.busy_of_idle hp]), if_neg hres', metaLen_toNat, if_neg (not_lt.mpr hlen),
    Sign.ofBit_extractLsb', ← metaLen_toNat, BitVec.ofNat_toNat, BitVec.setWidth_eq]

/-- A word whose bits [30:16] are 0 is what LMETA reads after it was written. -/
theorem metaWord_of_written (v : Word) (cells : List Limb) (hres : v.toNat / 2 ^ 16 % 2 ^ 15 = 0) :
    BigReg.metaWord { sign := if 2 ^ 31 ≤ v.toNat then .negative else .positive
                      len := BitVec.ofNat 16 (v.toNat % 2 ^ 16), limb := cells } = v := by
  have hlt := v.isLt
  rw [BigReg.metaWord_eq_ofNat]
  apply BitVec.eq_of_toNat_eq
  simp only [BitVec.toNat_ofNat]
  split_ifs with hsign
  · rw [show Sign.negative.toBit.toNat = 1 from rfl]
    omega
  · rw [show Sign.positive.toBit.toNat = 0 from rfl]
    omega

/-- Settles O51: the write is a refusal or one `setReg` of B[LREG] with sign and len replaced. -/
theorem lmetaWriteSetsSignAndLen : Obligations.LmetaWriteSetsSignAndLen := by
  rintro s t v rfl
  rw [hostWrite_lmeta]
  refine ⟨writeLmeta_of_refusal v s, fun hp hres hlen => ?_⟩
  rw [writeLmeta_of_accepted v s hp hres hlen]
  refine ⟨rfl, fun r hr => State.reg_setReg_of_ne s _ _ _ hr, State.reg_setReg_same s _ _, ?lmeta, fun hi => ?ldata⟩
  case lmeta =>
    rw [hostRead_lmeta_of_idle (s.setReg _ _) hp, State.setReg_lreg, State.reg_setReg_same, metaWord_of_written v _ hres]
  case ldata =>
    rw [hostRead_ldata_of_answered (s.setReg _ _) hp hi, State.setReg_lreg, State.reg_setReg_same]
    rfl

/-! ### The refused accesses (20_memory.md R72) -/

/-- The window offset of a register; RESERVED has several, of which this is the first (10_state.md R29, R44). -/
def MmioReg.offset : MmioReg → Nat
  | .cmd => 0x00
  | .status => 0x04
  | .ctrl => 0x08
  | .result => 0x0C
  | .immLo => 0x10
  | .immHi => 0x14
  | .lreg => 0x18
  | .lidx => 0x1C
  | .ldata => 0x20
  | .lmeta => 0x24
  | .id => 0x28
  | .param => 0x2C
  | .radix => 0x30
  | .reserved => 0x34

/-- Every register but RESERVED stands at its one offset. -/
theorem eq_offset_of_mmioAt {off : Nat} {r : MmioReg} (h : mmioAt off = r) (hr : r ≠ .reserved) : off = r.offset := by
  subst h
  unfold mmioAt at *
  split at *
  case h_14 => exact absurd rfl hr
  all_goals rfl

/-- A refused 32-bit read answers 0 and sets HOSTERR; it is a read of a port. -/
theorem mmioRead_of_refused (s : State) (off : Nat) (halign : off % 4 = 0) (h : RefusedRead s off 4) :
    mmioRead (mmioAt off) s = (0, s.refuse) := by
  rcases h with hsize | ⟨rfl | rfl, hp⟩ | ⟨rfl, hi⟩
  · omega
  · exact readLdata_of_refused s (s.ldataRefused_iff.mpr (.inl hp))
  · exact readLmeta_of_busy s (s.busy_iff.mpr hp)
  · exact readLdata_of_refused s (s.ldataRefused_iff.mpr (.inr hi))

/-- A read that is not refused leaves the state. -/
theorem mmioRead_state_of_not_refused (s : State) (off : Nat) (h : ¬ RefusedRead s off 4) :
    (mmioRead (mmioAt off) s).2 = s := by
  simp only [RefusedRead, not_or, not_and, not_not] at h
  obtain ⟨_, hidle, hidx⟩ := h
  cases hreg : mmioAt off with
  | ldata =>
    have hoff : off = 0x20 := eq_offset_of_mmioAt hreg (by decide)
    have href := s.ldataRefused_of_idle (hidle (.inl hoff)) (not_le.mp (hidx hoff))
    exact congrArg Prod.snd (readLdata_of_answered s href)
  | lmeta =>
    have hoff : off = 0x24 := eq_offset_of_mmioAt hreg (by decide)
    exact congrArg Prod.snd (readLmeta_of_idle s (s.busy_of_idle (hidle (.inr hoff))))
  | _ => rfl

theorem hostRead_of_undefined (off bytes : Nat) (s : State) (h : bytes ≠ 4 ∨ off % 4 ≠ 0) :
    hostRead off bytes s = { s.refuse with readData := List.replicate bytes 0 } := by
  rw [hostRead, definedAccess, if_neg (by simpa [imp_iff_not_or] using h)]

theorem hostWrite_of_undefined (off : Nat) (data : List Byte) (s : State) (h : data.length ≠ 4 ∨ off % 4 ≠ 0) :
    hostWrite off data s = s.refuse := by
  rw [hostWrite, definedAccess, if_neg (by simpa [imp_iff_not_or] using h)]

/-- Each refused write of R72 is refused by its register. -/
theorem mmioWrite_of_refused (s : State) (off : Nat) (v : Word) (h : RefusedWrite s off v) :
    mmioWrite (mmioAt off) v s = s.refuse := by
  rcases h with ⟨rfl | rfl, hp⟩ | ⟨rfl, hi⟩ | ⟨rfl, hv⟩ | ⟨rfl, hv⟩ | ⟨rfl, hv⟩ | ⟨rfl, hv⟩ | ⟨rfl, hv⟩
  · exact writeLdata_of_refusal v s (.inl hp)
  · exact writeLmeta_of_refusal v s (.inl hp)
  · exact writeLdata_of_refusal v s (.inr (.inl hi))
  · exact writeLdata_of_refusal v s (.inr (.inr hv))
  · exact writeLmeta_of_refusal v s (.inr hv)
  · exact writeLreg_of_le v s hv
  · exact writeLidx_of_le v s hv
  · exact writeCtrl_of_refused v s hv

theorem State.issue_hostErr (s : State) (w : Word) : (s.issue w).hostErr = s.hostErr := by
  unfold State.issue
  split <;> rfl

theorem writeLreg_hostErr_of_lt (v : Word) (s : State) (h : v.toNat < 2 ^ 4) : (writeLreg v s).hostErr = s.hostErr := by
  rw [writeLreg, if_neg (mt (extractLsb'_high_ne_zero_iff v 4 28 (by decide)).mp (not_le.mpr h))]

theorem writeLidx_hostErr_of_lt (v : Word) (s : State) (h : v.toNat < 2 ^ 16) : (writeLidx v s).hostErr = s.hostErr := by
  rw [writeLidx, if_neg (mt (extractLsb'_high_ne_zero_iff v 16 16 (by decide)).mp (not_le.mpr h))]

/-- A write that is not refused leaves HOSTERR, but for STATUS and the soft reset. -/
theorem mmioWrite_hostErr_of_not_refused (s : State) (off : Nat) (v : Word) (h : ¬ RefusedWrite s off v)
    (hstatus : off ≠ 0x04) (hreset : ¬ (off = 0x08 ∧ 2 ≤ v.toNat)) :
    (mmioWrite (mmioAt off) v s).hostErr = s.hostErr := by
  simp only [RefusedWrite, not_or, not_and, not_not] at h
  obtain ⟨hidle, hidx, hlimb, hmeta, hlreg, hlidx, _⟩ := h
  cases hreg : mmioAt off with
  | cmd => exact s.issue_hostErr v
  | status => exact absurd (eq_offset_of_mmioAt hreg (by decide)) hstatus
  | ctrl =>
    have hoff : off = 0x08 := eq_offset_of_mmioAt hreg (by decide)
    have hv : ¬ 2 ≤ v.toNat := fun hv => hreset ⟨hoff, hv⟩
    change (writeCtrl v s).hostErr = _
    rw [writeCtrl_of_lt v s (by omega), if_neg hv]
  | lreg => exact writeLreg_hostErr_of_lt v s (not_le.mp (hlreg (eq_offset_of_mmioAt hreg (by decide))))
  | lidx => exact writeLidx_hostErr_of_lt v s (not_le.mp (hlidx (eq_offset_of_mmioAt hreg (by decide))))
  | ldata =>
    have hoff : off = 0x20 := eq_offset_of_mmioAt hreg (by decide)
    change (writeLdata v s).hostErr = _
    rw [writeLdata_of_accepted v s (hidle (.inl hoff)) (not_le.mp (hidx hoff)) (not_le.mp (hlimb hoff)),
      State.setReg_hostErr]
  | lmeta =>
    have hoff : off = 0x24 := eq_offset_of_mmioAt hreg (by decide)
    obtain ⟨hres, hlen⟩ := hmeta hoff
    change (writeLmeta v s).hostErr = _
    rw [writeLmeta_of_accepted v s (hidle (.inr hoff)) hres (not_lt.mp hlen), State.setReg_hostErr]
  | _ => rfl

/-- A completed word leaves HOSTERR. -/
theorem completeWord_hostErr (w : Word) (s t : State) (h : completeWord w s = .next t) : t.hostErr = s.hostErr := by
  rcases completeWord_cases w s with ⟨_, _, he⟩ | ⟨i, _, he⟩
  · rw [he] at h
    cases h
    rfl
  · rcases exec_cases i s with ⟨c, _, hx⟩ | ⟨rd, x, _, _, hx⟩ | ⟨ra, rb, _, hx⟩ <;>
      · rw [he, hx] at h
        cases h
        rfl

/-- Settles O52: an access is undefined, refused by a port or a register, or neither. -/
theorem refusedAccessesSetHosterr : Obligations.RefusedAccessesSetHosterr := by
  intro s off _
  refine ⟨fun bytes href => ?refusedRead, fun bytes href => ?read, fun data hdata => hostWrite_of_undefined off data s hdata,
    fun v halign href => ?refusedWrite, fun v halign href hstatus hreset => ?write,
    fun w t h => completeWord_hostErr w s t h⟩
  case refusedRead =>
    by_cases hdef : bytes ≠ 4 ∨ off % 4 ≠ 0
    · exact hostRead_of_undefined off bytes s hdef
    · obtain ⟨rfl, halign⟩ : bytes = 4 ∧ off % 4 = 0 := by omega
      exact hostRead_of_mmioRead halign (mmioRead_of_refused s off halign href)
  case read =>
    obtain ⟨rfl, halign⟩ : bytes = 4 ∧ off % 4 = 0 := by
      have hdef : ¬ (bytes ≠ 4 ∨ off % 4 ≠ 0) := fun hdef => href (.inl hdef)
      omega
    rw [hostRead_word off s halign, mmioRead_state_of_not_refused s off href]
  case refusedWrite =>
    exact (hostWrite_toLanes off v s halign).trans (mmioWrite_of_refused s off v href)
  case write =>
    rw [hostWrite_toLanes off v s halign]
    exact mmioWrite_hostErr_of_not_refused s off v href hstatus hreset

end Sys2Proof.Machine
end

section
/-! Proofs about the encoding (30_encoding.md): the fields of a word, and which words are illegal. -/

namespace Sys2Proof.Machine

/-! ### The fields of a word (30_encoding.md R91) -/

/-- A word whose RSV is 0 is the command word of its other fields. -/
theorem eq_commandWord_of_fieldRsv (w : Word) (h : fieldRsv w = 0) :
    w = commandWord ((fieldOp w).setWidth 32) (fieldRd w) (fieldRa w) (fieldRb w) (fieldRc w) := by
  rw [commandWord_eq_append, ← h]
  exact word_eq_append w

/-- Settles O3: each field is a quotient and a remainder of the word, and the word is the concatenation of its fields. -/
theorem wordIsBuiltFromFields : Obligations.WordIsBuiltFromFields := by
  intro w
  have hrsv : w.toNat / 2 ^ 24 < 2 ^ 8 := by
    have hlt := w.isLt
    omega
  refine ⟨?op, toNat_extractLsb'_eq_div_mod w 8 4, toNat_extractLsb'_eq_div_mod w 12 4, toNat_extractLsb'_eq_div_mod w 16 4,
    toNat_extractLsb'_eq_div_mod w 20 4, ?rsv, eq_commandWord_of_fieldRsv w⟩
  case op => rw [fieldOp, toNat_extractLsb'_eq_div_mod, pow_zero, Nat.div_one]
  case rsv => rw [fieldRsv, toNat_extractLsb'_eq_div_mod, Nat.mod_eq_of_lt hrsv]

/-! ### Illegal words (30_encoding.md R96) -/

/-- A register field is 0 as an index when its bits are 0. -/
theorem toFin_extractLsb'_of_eq_zero {w : Word} {pos : Nat} (h : w.extractLsb' pos 4 = 0) :
    (w.extractLsb' pos 4).toFin = (0 : Reg) :=
  congrArg BitVec.toFin h

/-- A word whose RSV is 0 is the command word of what its other fields hold. -/
theorem eq_commandWord_of_fields {w : Word} {op : BitVec 8} {rd ra rb rc : Reg} (hrsv : fieldRsv w = 0)
    (hop : fieldOp w = op) (hrd : fieldRd w = rd) (hra : fieldRa w = ra) (hrb : fieldRb w = rb) (hrc : fieldRc w = rc) :
    w = commandWord (op.setWidth 32) rd ra rb rc := by
  rw [← hop, ← hrd, ← hra, ← hrb, ← hrc]
  exact eq_commandWord_of_fieldRsv w hrsv

/-- A word that a row of form RRR covers is a command word with RC 0. -/
theorem eq_commandWord_of_rrr {w : Word} {op : BitVec 8}
    (h : fieldRsv w = 0 ∧ w.extractLsb' 20 4 = 0 ∧ fieldOp w = op) :
    w = commandWord (op.setWidth 32) (fieldRd w) (fieldRa w) (fieldRb w) 0 := by
  obtain ⟨hrsv, hrc, hop⟩ := h
  exact eq_commandWord_of_fields hrsv hop rfl rfl rfl (toFin_extractLsb'_of_eq_zero hrc)

/-- A word that decodes is the word of its command: the row that covers it fixes OP and puts 0 in RSV and in the fields
that its form does not use. -/
theorem eq_encode_of_decode {w : Word} {i : Instr} (h : decode w = .ok i) : w = encode i := by
  rw [decode_eq] at h
  split_ifs at h with add sub mul div mod pow cmp seti <;> cases h
  · exact (eq_commandWord_of_rrr add :)
  · exact (eq_commandWord_of_rrr sub :)
  · exact (eq_commandWord_of_rrr mul :)
  · exact (eq_commandWord_of_rrr div :)
  · exact (eq_commandWord_of_rrr mod :)
  · obtain ⟨hrsv, hop⟩ := pow
    exact (eq_commandWord_of_fields hrsv hop rfl rfl rfl rfl :)
  · obtain ⟨hrsv, hrc, hrd, hop⟩ := cmp
    exact (eq_commandWord_of_fields hrsv hop (toFin_extractLsb'_of_eq_zero hrd) rfl rfl
      (toFin_extractLsb'_of_eq_zero hrc) :)
  · obtain ⟨hrsv, hrc, hrb, hra, hop⟩ := seti
    exact (eq_commandWord_of_fields hrsv hop rfl (toFin_extractLsb'_of_eq_zero hra) (toFin_extractLsb'_of_eq_zero hrb)
      (toFin_extractLsb'_of_eq_zero hrc) :)

theorem encode_wellFormed (i : Instr) : (encode i).wellFormed = true := by
  have form : Laws.Form.Statement i := by
    cases i with
    | add rd ra rb => exact Laws.Form.add rd ra rb
    | sub rd ra rb => exact Laws.Form.sub rd ra rb
    | mul rd ra rb => exact Laws.Form.mul rd ra rb
    | div rd ra rb => exact Laws.Form.div rd ra rb
    | mod rd ra rb => exact Laws.Form.mod rd ra rb
    | pow rd ra rb rc => exact Laws.Form.pow rd ra rb rc
    | cmp ra rb => exact Laws.Form.cmp ra rb
    | seti rd => exact Laws.Form.seti rd
  obtain ⟨_, hwf, _⟩ := form
  exact hwf

/-- A well-formed word decodes: with RSV and the unused fields 0, each assigned OP has its row in the opcode map. -/
theorem exists_decode_of_wellFormed {w : Word} (h : w.wellFormed = true) : ∃ i, decode w = .ok i := by
  simp only [Word.wellFormed, Word.opAssigned, Word.reservedZero, Word.unusedZero, Bool.and_eq_true, decide_eq_true_eq,
    beq_iff_eq] at h
  obtain ⟨⟨⟨hlo, hhi⟩, hrsv⟩, hunused⟩ := h
  have hop : fieldOp w = BitVec.ofNat 8 (w.extractLsb' 0 8).toNat := by rw [BitVec.ofNat_toNat, BitVec.setWidth_eq, fieldOp]
  generalize (w.extractLsb' 0 8).toNat = n at *
  rw [decode_eq, hop, fieldRsv, hrsv]
  interval_cases n <;> simp_all

/-- Settles O4: a well-formed word decodes, and a word that decodes is the word of a command, which is well formed. -/
theorem illegalWordsComplete : Obligations.IllegalWordsComplete := by
  intro w
  have hdecode : w.wellFormed = true ↔ ∃ i, decode w = .ok i := by
    refine ⟨exists_decode_of_wellFormed, ?_⟩
    rintro ⟨i, hi⟩
    rw [eq_encode_of_decode hi]
    exact encode_wellFormed i
  refine ⟨hdecode, fun hill s => ?_⟩
  rcases completeWord_cases w s with ⟨_, _, he⟩ | ⟨i, hi, _⟩
  · rw [he, s.raise_eq_afterError]
  · exact absurd (hdecode.mpr ⟨i, hi⟩) (by simp [hill])

end Sys2Proof.Machine
end

section
/-! Proofs about ADD and SUB (40_addsub.md R110, R112, R113), on the facts that every command of the shared template needs: its
word decodes to it, the encoding of a result that fits holds the result exactly, and what the template leaves. -/

namespace Sys2Proof.Machine

/-! ### The word of a command (30_encoding.md R91, R94) -/

/-- Decoding reads from a command word the fields it was built from; a field that the form does not use must be 0. -/
theorem decode_commandWord (op : BitVec 8) (rd ra rb rc : Reg) :
    decode (commandWord (op.setWidth 32) rd ra rb rc) =
      if rc = 0 ∧ op = 1 then .ok (.add rd ra rb)
      else if rc = 0 ∧ op = 2 then .ok (.sub rd ra rb)
      else if rc = 0 ∧ op = 3 then .ok (.mul rd ra rb)
      else if rc = 0 ∧ op = 4 then .ok (.div rd ra rb)
      else if rc = 0 ∧ op = 5 then .ok (.mod rd ra rb)
      else if op = 6 then .ok (.pow rd ra rb rc)
      else if rc = 0 ∧ rd = 0 ∧ op = 7 then .ok (.cmp ra rb)
      else if rc = 0 ∧ rb = 0 ∧ ra = 0 ∧ op = 8 then .ok (.seti rd)
      else .error (illegalCase (commandWord (op.setWidth 32) rd ra rb rc)) := by
  have ofFin_eq_zero : ∀ r : Reg, (BitVec.ofFin r : BitVec 4) = 0 ↔ r = 0 := by decide
  obtain ⟨hrsv, hrc, hrb, hra, hrd, hop⟩ := Laws.Form.fields op rd ra rb rc _ rfl
  rw [decode_eq]
  simp only [fieldRsv, fieldOp, fieldRd, fieldRa, fieldRb, fieldRc, hrsv, hrc, hrb, hra, hrd, hop, ofFin_eq_zero, true_and]

/-- The word of a command decodes to the command. -/
theorem decode_encode (i : Instr) : decode (encode i) = .ok i := by
  cases i with
  | add rd ra rb => exact (decode_commandWord 1 rd ra rb 0).trans (by simp)
  | sub rd ra rb => exact (decode_commandWord 2 rd ra rb 0).trans (by simp)
  | mul rd ra rb => exact (decode_commandWord 3 rd ra rb 0).trans (by simp)
  | div rd ra rb => exact (decode_commandWord 4 rd ra rb 0).trans (by simp)
  | mod rd ra rb => exact (decode_commandWord 5 rd ra rb 0).trans (by simp)
  | pow rd ra rb rc => exact (decode_commandWord 6 rd ra rb rc).trans (by simp)
  | cmp ra rb => exact (decode_commandWord 7 0 ra rb 0).trans (by simp)
  | seti rd => exact (decode_commandWord 8 rd 0 0 0).trans (by simp)

/-! ### The encoding of a result (10_state.md R23 to R25) -/

theorem nlen_eq_zero_iff (v : Int) : nlen v = 0 ↔ v = 0 := by
  rw [← Nat.le_zero, nlen_le_iff, pow_zero, Nat.lt_one_iff, Int.natAbs_eq_zero]

/-- Above its digit count a value has no digit. -/
theorem enc_cell_of_nlen_le (lmax : Nat) (v : Int) (i : Nat) (h : nlen v ≤ i) : (enc lmax v).cell i = 0 := by
  by_cases hi : i < lmax
  · apply BitVec.eq_of_toNat_eq
    rw [enc_cell lmax v i hi, Nat.div_eq_of_lt ((nlen_le_iff v i).mp h)]
    rfl
  · exact List.getD_eq_default _ _ (by simpa using hi)

/-- The top digit of a value that is not 0 is not 0: the value has more than nlen − 1 digits and no more than nlen. -/
theorem enc_cell_top_ne_zero (lmax : Nat) (v : Int) (hv : v ≠ 0) (h : nlen v ≤ lmax) :
    (enc lmax v).cell (nlen v - 1) ≠ 0 := by
  have hpos : nlen v ≠ 0 := mt (nlen_eq_zero_iff v).mp hv
  have hlow : radix ^ (nlen v - 1) ≤ v.natAbs := (lt_nlen_iff v _).mp (by omega)
  have hhigh : v.natAbs / radix ^ (nlen v - 1) < radix := by
    rw [Nat.div_lt_iff_lt_mul (pow_pos radix_pos _), ← pow_succ', Nat.sub_one_add_one hpos]
    exact natAbs_lt_pow_nlen v
  intro hcell
  have hzero := congrArg BitVec.toNat hcell
  rw [enc_cell lmax v _ (by omega), Nat.mod_eq_of_lt hhigh] at hzero
  exact absurd hzero (Nat.div_pos hlow (pow_pos radix_pos _)).ne'

theorem enc_val (lmax : Nat) (v : Int) (hl : lmax < 2 ^ 16) (h : nlen v ≤ lmax) : (enc lmax v).val = v := by
  rw [BigReg.val, enc_mag lmax v hl h, enc_sign]
  split_ifs with hneg <;> simp only [Sign.factor] <;> omega

theorem enc_wf (lmax : Nat) (v : Int) (hl : lmax < 2 ^ 16) (h : nlen v ≤ lmax) : (enc lmax v).wf lmax = true := by
  have hlen := enc_len_toNat lmax v (by omega)
  have hdigits : ∀ l ∈ (enc lmax v).limbs, l < radix := by
    intro l hmem
    obtain ⟨x, hx, rfl⟩ := List.mem_map.mp hmem
    exact encLimbs_lt lmax v x (List.mem_of_mem_take hx)
  have htop : nlen v = 0 ∨ (enc lmax v).cell (nlen v - 1) ≠ 0 := by
    by_cases hv : v = 0
    · exact .inl ((nlen_eq_zero_iff v).mpr hv)
    · exact .inr (enc_cell_top_ne_zero lmax v hv h)
  have hsign : nlen v ≠ 0 ∨ (enc lmax v).sign = .positive := by
    by_cases hv : v = 0
    · exact .inr (by simp [hv])
    · exact .inl (mt (nlen_eq_zero_iff v).mp hv)
  simp only [BigReg.wf, hlen, Bool.and_eq_true, Bool.or_eq_true, decide_eq_true_eq, List.all_eq_true]
  exact ⟨⟨⟨h, hdigits⟩, htop⟩, hsign⟩

/-- The encoding of a value that fits holds it exactly. -/
theorem enc_holdsExactly (lmax : Nat) (v : Int) (hl : lmax < 2 ^ 16) (h : nlen v ≤ lmax) :
    (enc lmax v).HoldsExactly lmax v := by
  refine ⟨enc_wf lmax v hl h, enc_val lmax v hl h, encLimbs_length lmax v, fun i hi => ?_⟩
  rw [enc_len_toNat lmax v (by omega)] at hi
  exact enc_cell_of_nlen_le lmax v i hi

/-! ### The command template (40_addsub.md R110) -/

theorem Config.lmax_lt_of_wellFormed {c : Config} (h : c.wellFormed = true) : c.lmax < 2 ^ 16 := by
  simp only [Config.wellFormed, Bool.and_eq_true, decide_eq_true_eq] at h
  omega

/-- The write-back of a value that fits, with the successful completion, stores the value. -/
theorem State.stores_writeBack_complete (s : State) (rd : Reg) (v : Int) (hcfg : s.cfg.wellFormed = true)
    (hv : nlen v ≤ s.cfg.lmax) : Stores s (s.writeBack rd v).complete rd v := by
  refine ⟨rfl, fun r hr => s.reg_writeBack_of_ne v rd r hr, ?_⟩
  rw [State.reg_complete, State.reg_writeBack_same]
  exact enc_holdsExactly _ v (Config.lmax_lt_of_wellFormed hcfg) hv

/-- A command that runs the template on two sources with an exact result v: OPERAND, OVERFLOW, or v stored. -/
theorem exec_of_compute_pair {i : Instr} {s : State} {rd ra rb : Reg} {v : Int} (hcfg : s.cfg.wellFormed = true)
    (hexec : exec i s = .next (s.compute [ra, rb] rd (.ok v))) :
    (¬ (s.Wf ra ∧ s.Wf rb) → exec i s = .next (afterError s .operand))
      ∧ (s.Wf ra → s.Wf rb → s.cfg.lmax < nlen v → exec i s = .next (afterError s .overflow))
      ∧ (s.Wf ra → s.Wf rb → nlen v ≤ s.cfg.lmax → ∃ t, exec i s = .next t ∧ Stores s t rd v) := by
  have hsources : (∀ r ∈ [ra, rb], s.Wf r) ↔ s.Wf ra ∧ s.Wf rb := by simp
  rw [hexec]
  refine ⟨fun hbad => ?operand, fun ha hb hv => ?overflow, fun ha hb hv => ?fits⟩
  case operand => rw [s.compute_of_badSource _ rd _ (mt hsources.mp hbad), s.raise_eq_afterError]
  case overflow => rw [s.compute_of_overflow _ rd v (hsources.mpr ⟨ha, hb⟩) hv, s.raise_eq_afterError]
  case fits =>
    rw [s.compute_of_fits _ rd v (hsources.mpr ⟨ha, hb⟩) hv]
    exact ⟨_, rfl, s.stores_writeBack_complete rd v hcfg hv⟩

/-! ### ADD and SUB (40_addsub.md R112, R113) -/

theorem exec_add (rd ra rb : Reg) (s : State) :
    exec (.add rd ra rb) s = .next (s.compute [ra, rb] rd (.ok (s.val ra + s.val rb))) := rfl

theorem exec_sub (rd ra rb : Reg) (s : State) :
    exec (.sub rd ra rb) s = .next (s.compute [ra, rb] rd (.ok (s.val ra - s.val rb))) := rfl

/-- Settles O11: ADD is the template on two sources with their exact sum. -/
theorem addStoresSum : Obligations.AddStoresSum := by
  intro s rd ra rb hcfg
  exact ⟨decode_encode (.add rd ra rb), exec_of_compute_pair hcfg (exec_add rd ra rb s)⟩

/-- Settles O12: SUB is the template on two sources with their exact difference. -/
theorem subStoresDifference : Obligations.SubStoresDifference := by
  intro s rd ra rb hcfg
  exact ⟨decode_encode (.sub rd ra rb), exec_of_compute_pair hcfg (exec_sub rd ra rb s)⟩

end Sys2Proof.Machine
end

section
/-! Proofs about MUL (41_multiply.md R130): it is the shared template on two sources, as ADD and SUB are, with their product. -/

namespace Sys2Proof.Machine

theorem exec_mul (rd ra rb : Reg) (s : State) :
    exec (.mul rd ra rb) s = .next (s.compute [ra, rb] rd (.ok (s.val ra * s.val rb))) := rfl

/-- Settles O13: MUL is the template on two sources with their exact product. -/
theorem mulStoresProduct : Obligations.MulStoresProduct := by
  intro s rd ra rb hcfg
  exact ⟨decode_encode (.mul rd ra rb), exec_of_compute_pair hcfg (exec_mul rd ra rb s)⟩

end Sys2Proof.Machine
end

section
/-! Proofs about DIV and MOD (42_divide.md R160, R166): the shared template behind the zero check of the divisor. Neither overflows,
because quotient and remainder are no greater in magnitude than the dividend, and a well-formed dividend fits LMAX limbs. -/

namespace Sys2Proof.Machine

/-! ### A well-formed register fits (10_state.md R23, R24) -/

theorem Sign.natAbs_factor (g : Sign) : g.factor.natAbs = 1 := by
  cases g <;> rfl

theorem BigReg.natAbs_val (b : BigReg) : b.val.natAbs = b.mag := by
  rw [BigReg.val, Int.natAbs_mul, Sign.natAbs_factor, one_mul, Int.natAbs_natCast]

theorem BigReg.limbs_length_le (b : BigReg) : b.limbs.length ≤ b.len.toNat := by
  simp [BigReg.limbs]

/-- A well-formed register has at most LMAX limbs, each below R, so its value fits. -/
theorem BigReg.nlen_val_le_of_wf {lmax : Nat} {b : BigReg} (h : b.wf lmax = true) : nlen b.val ≤ lmax := by
  simp only [BigReg.wf, Bool.and_eq_true, decide_eq_true_eq, List.all_eq_true] at h
  obtain ⟨⟨⟨hlen, hlimbs⟩, _⟩, _⟩ := h
  rw [nlen_le_iff, b.natAbs_val]
  calc b.mag < radix ^ b.limbs.length := magOf_lt_pow b.limbs hlimbs
    _ ≤ radix ^ lmax := Nat.pow_le_pow_right radix_pos (b.limbs_length_le.trans hlen)

/-! ### The template behind the zero check (42_divide.md R160, R166, R167) -/

/-- A command that runs the template on two sources, with DIVZERO for a zero divisor and otherwise a result v of no greater
magnitude than the dividend: OPERAND, DIVZERO, or v stored. -/
theorem exec_of_compute_divide {i : Instr} {s : State} {rd ra rb : Reg} {v : Int} (hcfg : s.cfg.wellFormed = true)
    (hle : v.natAbs ≤ (s.val ra).natAbs)
    (hexec : exec i s = .next (s.compute [ra, rb] rd (if s.val rb = 0 then .error .divZero else .ok v))) :
    (¬ (s.Wf ra ∧ s.Wf rb) → exec i s = .next (afterError s .operand))
      ∧ (s.Wf ra → s.Wf rb → s.val rb = 0 → exec i s = .next (afterError s .divZero))
      ∧ (s.Wf ra → s.Wf rb → s.val rb ≠ 0 → ∃ t, exec i s = .next t ∧ Stores s t rd v) := by
  have hsources : (∀ r ∈ [ra, rb], s.Wf r) ↔ s.Wf ra ∧ s.Wf rb := by simp
  refine ⟨fun hbad => ?operand, fun ha hb hzero => ?divZero, fun ha hb hzero => ?stored⟩
  case operand => rw [hexec, s.compute_of_badSource _ rd _ (mt hsources.mp hbad), s.raise_eq_afterError]
  case divZero =>
    rw [hexec, if_pos hzero, s.compute_of_error _ rd _ (hsources.mpr ⟨ha, hb⟩), s.raise_eq_afterError]
  case stored =>
    rw [if_neg hzero] at hexec
    obtain ⟨_, _, hstores⟩ := exec_of_compute_pair hcfg hexec
    exact hstores ha hb ((nlen_mono hle).trans (BigReg.nlen_val_le_of_wf ha))

/-! ### DIV and MOD (42_divide.md R160, R166) -/

theorem exec_div (rd ra rb : Reg) (s : State) :
    exec (.div rd ra rb) s = .next (s.compute [ra, rb] rd
      (if s.val rb = 0 then .error .divZero else .ok ((s.val ra).tdiv (s.val rb)))) := by
  rw [← truncDiv_eq_tdiv]
  rfl

theorem exec_mod (rd ra rb : Reg) (s : State) :
    exec (.mod rd ra rb) s = .next (s.compute [ra, rb] rd
      (if s.val rb = 0 then .error .divZero else .ok ((s.val ra).tmod (s.val rb)))) := by
  rw [← truncRem_eq_tmod]
  rfl

/-- Settles O14: DIV is the zero-checked template, and a quotient is no greater in magnitude than the dividend. -/
theorem divStoresQuotient : Obligations.DivStoresQuotient := by
  intro s rd ra rb hcfg
  have hle : ((s.val ra).tdiv (s.val rb)).natAbs ≤ (s.val ra).natAbs := Int.natAbs_tdiv_le_natAbs _ _
  exact ⟨decode_encode (.div rd ra rb), exec_of_compute_divide hcfg hle (exec_div rd ra rb s)⟩

/-- Settles O15: MOD is the zero-checked template, and a remainder is no greater in magnitude than the dividend. -/
theorem modStoresRemainder : Obligations.ModStoresRemainder := by
  intro s rd ra rb hcfg
  have hle : ((s.val ra).tmod (s.val rb)).natAbs ≤ (s.val ra).natAbs := by
    rw [Int.natAbs_tmod]
    exact Nat.mod_le _ _
  exact ⟨decode_encode (.mod rd ra rb), exec_of_compute_divide hcfg hle (exec_mod rd ra rb s)⟩

end Sys2Proof.Machine
end

section
/-! Proofs about POW (43_pow.md R180, R181): the control loop of R184 computes the closed form of R180, in modular mode because
reduction commutes with products (R190), in non-modular mode because every value the loop forms divides the power (R187). -/

namespace Sys2Proof.Machine

/-! ### One pass of the loop (43_pow.md R184) -/

/-- The value the loop still has to form: ACC · BASE^E. -/
def PowRegs.power (r : PowRegs) : Int :=
  r.acc * r.base ^ r.e

/-- The loop registers after a pass in which step(p) of R184 answers f p. -/
def PowRegs.pass (f : Int → Int) (r : PowRegs) : PowRegs :=
  { e := r.e / 2
    acc := if r.e % 2 = 1 then f (r.acc * r.base) else r.acc
    base := if 0 < r.e / 2 then f (r.base * r.base) else r.base }

theorem powPass_of_modulus_ne_zero (lmax : Nat) {m : Int} (hm : m ≠ 0) (r : PowRegs) :
    powPass lmax m r = .ok (r.pass (·.tmod m)) := by
  have hreduce : ∀ p, powReduce lmax m p = .ok (p.tmod m) := fun p => by rw [powReduce, if_pos hm, truncRem_eq_tmod]
  have hacc : powAcc lmax m r = .ok (r.pass (·.tmod m)).acc := by
    simp only [powAcc, hreduce, PowRegs.pass, apply_ite Except.ok]
  have hbase : powBase lmax m r = .ok (r.pass (·.tmod m)).base := by
    simp only [powBase, hreduce, PowRegs.pass, apply_ite Except.ok]
  rw [powPass, hacc, hbase]
  rfl

/-- Without a modulus a pass fails exactly when a product that it forms needs more than LMAX limbs. -/
theorem powPass_of_modulus_zero (lmax : Nat) (r : PowRegs) :
    powPass lmax 0 r =
      if r.e % 2 = 1 ∧ lmax < nlen (r.acc * r.base) ∨ 0 < r.e / 2 ∧ lmax < nlen (r.base * r.base) then .error .overflow
      else .ok (r.pass id) := by
  have hreduce : ∀ p, powReduce lmax 0 p = if lmax < nlen p then .error .overflow else .ok p := fun _ => rfl
  have hacc : powAcc lmax 0 r =
      if r.e % 2 = 1 ∧ lmax < nlen (r.acc * r.base) then .error .overflow else .ok (r.pass id).acc := by
    by_cases hodd : r.e % 2 = 1 <;> simp [powAcc, hreduce, PowRegs.pass, hodd]
  have hbase : powBase lmax 0 r =
      if 0 < r.e / 2 ∧ lmax < nlen (r.base * r.base) then .error .overflow else .ok (r.pass id).base := by
    by_cases hhalf : 0 < r.e / 2 <;>
      simp only [powBase, hreduce, PowRegs.pass, hhalf, id, if_true, if_false, true_and, false_and]
  rw [powPass, hacc, hbase, ite_or]
  split_ifs <;> rfl

theorem powLoop_of_exponent_zero (lmax : Nat) (m : Int) (fuel : Nat) (r : PowRegs) (he : r.e = 0) :
    powLoop lmax m fuel r = .ok r.acc := by
  cases fuel with
  | zero => rfl
  | succ fuel => rw [powLoop, if_pos he]

theorem powLoop_of_pass_ok {lmax : Nat} {m : Int} {r r' : PowRegs} (fuel : Nat) (he : r.e ≠ 0)
    (hpass : powPass lmax m r = .ok r') : powLoop lmax m (fuel + 1) r = powLoop lmax m fuel r' := by
  rw [powLoop, if_neg he, hpass]

theorem powLoop_of_pass_error {lmax : Nat} {m : Int} {r : PowRegs} {c : ErrCode} (fuel : Nat) (he : r.e ≠ 0)
    (hpass : powPass lmax m r = .error c) : powLoop lmax m (fuel + 1) r = .error c := by
  rw [powLoop, if_neg he, hpass]

/-- The power with the exponent's lowest bit moved into the accumulator: e = (e mod 2) + 2 · (e div 2). -/
theorem PowRegs.power_eq (r : PowRegs) :
    r.power = (if r.e % 2 = 1 then r.acc * r.base else r.acc) * (r.base * r.base) ^ (r.e / 2) := by
  conv_lhs => rw [PowRegs.power, ← Nat.mod_add_div r.e 2, pow_add, pow_mul, pow_two, ← mul_assoc]
  rcases Nat.mod_two_eq_zero_or_one r.e with h | h <;> simp [h]

theorem PowRegs.power_of_exponent_zero {r : PowRegs} (he : r.e = 0) : r.power = r.acc := by
  rw [PowRegs.power, he, pow_zero, mul_one]

/-- A pass without reduction keeps the value the loop has to form. -/
theorem PowRegs.power_pass_id (r : PowRegs) : (r.pass id).power = r.power := by
  rw [r.power_eq]
  rcases Nat.eq_zero_or_pos (r.e / 2) with h | h <;> simp [PowRegs.power, PowRegs.pass, h]

/-! ### Modular mode (43_pow.md R183, R190) -/

theorem pow_tmod (b m : Int) (k : Nat) : (b.tmod m ^ k).tmod m = (b ^ k).tmod m := by
  induction k with
  | zero => simp
  | succ k ih => rw [pow_succ, pow_succ, Int.mul_tmod, ih, Int.tmod_tmod, ← Int.mul_tmod]

/-- A pass with reduction keeps the value the loop has to form, up to reduction. -/
theorem PowRegs.tmod_power_pass (r : PowRegs) (m : Int) : (r.pass (·.tmod m)).power.tmod m = r.power.tmod m := by
  have hacc : (r.pass (·.tmod m)).acc.tmod m = (if r.e % 2 = 1 then r.acc * r.base else r.acc).tmod m := by
    simp only [PowRegs.pass]
    split_ifs <;> simp
  have hbase : ((r.pass (·.tmod m)).base ^ (r.e / 2)).tmod m = ((r.base * r.base) ^ (r.e / 2)).tmod m := by
    rcases Nat.eq_zero_or_pos (r.e / 2) with h | h <;> simp [PowRegs.pass, h, pow_tmod]
  rw [r.power_eq, Int.mul_tmod, ← hacc, ← hbase, ← Int.mul_tmod]
  rfl

/-- In modular mode the loop reduces the power, unless it makes no pass. -/
theorem powLoop_of_modulus_ne_zero (lmax : Nat) {m : Int} (hm : m ≠ 0) (fuel : Nat) (r : PowRegs) (hfuel : r.e < 2 ^ fuel)
    (he : r.e ≠ 0) : powLoop lmax m fuel r = .ok (r.power.tmod m) := by
  induction fuel generalizing r with
  | zero => exact absurd (Nat.lt_one_iff.mp hfuel) he
  | succ fuel ih =>
    rw [powLoop_of_pass_ok fuel he (powPass_of_modulus_ne_zero lmax hm r)]
    by_cases hlast : r.e / 2 = 0
    · have hone : r.e = 1 := by omega
      rw [powLoop_of_exponent_zero _ _ _ _ hlast]
      simp [PowRegs.pass, PowRegs.power, hone]
    · have hhalf : (r.pass (·.tmod m)).e < 2 ^ fuel := Nat.div_lt_of_lt_mul (by rwa [← pow_succ'])
      rw [ih _ hhalf hlast, r.tmod_power_pass]

/-! ### Non-modular mode (43_pow.md R182, R187) -/

/-- What the non-modular loop keeps: ACC fits, and ACC is 0 only when BASE is. -/
def PowRegs.Fits (lmax : Nat) (r : PowRegs) : Prop :=
  nlen r.acc ≤ lmax ∧ (r.acc = 0 → r.base = 0)

/-- A divisor of the power, which is 0 if the power is, is no longer than the power. -/
theorem nlen_le_of_dvd {p v : Int} (hdvd : p ∣ v) (hzero : v = 0 → p = 0) : nlen p ≤ nlen v := by
  apply nlen_mono
  by_cases hv : v = 0
  · rw [hv, hzero hv]
  · exact Nat.le_of_dvd (Int.natAbs_pos.mpr hv) (Int.natAbs_dvd_natAbs.mpr hdvd)

/-- Every product that a pass forms is no longer than the power: with the squaring guard it divides the power (R187). -/
theorem PowRegs.Fits.product_le {lmax : Nat} {r : PowRegs} (h : r.Fits lmax) :
    (r.e % 2 = 1 → nlen (r.acc * r.base) ≤ nlen r.power)
      ∧ (0 < r.e / 2 → nlen (r.base * r.base) ≤ nlen r.power) := by
  have hbase : r.power = 0 → r.base = 0 := fun hv => (mul_eq_zero.mp hv).elim h.2 eq_zero_of_pow_eq_zero
  refine ⟨fun hodd => nlen_le_of_dvd ?_ fun hv => by rw [hbase hv, mul_zero],
    fun hhalf => nlen_le_of_dvd ?_ fun hv => by rw [hbase hv, mul_zero]⟩
  · rw [r.power_eq, if_pos hodd]
    exact Dvd.intro _ rfl
  · rw [r.power_eq]
    exact (dvd_pow_self _ hhalf.ne').mul_left _

theorem PowRegs.Fits.pass {lmax : Nat} {r : PowRegs} (h : r.Fits lmax)
    (hacc : r.e % 2 = 1 → nlen (r.acc * r.base) ≤ lmax) : (r.pass id).Fits lmax := by
  obtain ⟨hfits, hzero⟩ := h
  refine ⟨?_, fun h0 => ?_⟩
  · simp only [PowRegs.pass, id]
    split_ifs with hodd
    · exact hacc hodd
    · exact hfits
  · have hbase : r.base = 0 := by
      simp only [PowRegs.pass, id] at h0
      split_ifs at h0
      · exact (mul_eq_zero.mp h0).elim hzero id
      · exact hzero h0
    simp [PowRegs.pass, hbase]

/-- Without a modulus the loop forms the power, or overflows when the power needs more than LMAX limbs. -/
theorem powLoop_of_modulus_zero (lmax fuel : Nat) (r : PowRegs) (hfuel : r.e < 2 ^ fuel) (h : r.Fits lmax) :
    powLoop lmax 0 fuel r = if lmax < nlen r.power then .error .overflow else .ok r.power := by
  induction fuel generalizing r with
  | zero =>
    have he : r.e = 0 := Nat.lt_one_iff.mp hfuel
    rw [powLoop_of_exponent_zero _ _ _ _ he, PowRegs.power_of_exponent_zero he, if_neg h.1.not_gt]
  | succ fuel ih =>
    by_cases he : r.e = 0
    · rw [powLoop_of_exponent_zero _ _ _ _ he, PowRegs.power_of_exponent_zero he, if_neg h.1.not_gt]
    · obtain ⟨hprod, hsquare⟩ := h.product_le
      have hpass := powPass_of_modulus_zero lmax r
      split_ifs at hpass with hover
      · have hlong : lmax < nlen r.power := by
          rcases hover with ⟨hodd, hlong⟩ | ⟨hhalf, hlong⟩
          · exact hlong.trans_le (hprod hodd)
          · exact hlong.trans_le (hsquare hhalf)
        rw [powLoop_of_pass_error fuel he hpass, if_pos hlong]
      · have hfits : (r.pass id).Fits lmax := h.pass fun hodd => by
          by_contra hlong
          exact hover (.inl ⟨hodd, not_le.mp hlong⟩)
        have hhalf : (r.pass id).e < 2 ^ fuel := Nat.div_lt_of_lt_mul (by rwa [← pow_succ'])
        rw [powLoop_of_pass_ok fuel he hpass, ih _ hhalf hfits, r.power_pass_id]

/-! ### The closed form (43_pow.md R180, R182, R183) -/

theorem lt_two_pow_bitLength (e : Nat) : e < 2 ^ bitLength e := by
  unfold bitLength
  split_ifs with he
  · simp [he]
  · exact Nat.lt_log2_self

theorem nlen_one_le {lmax : Nat} (hl : 1 ≤ lmax) : nlen 1 ≤ lmax :=
  le_trans (by decide) hl

/-- The loop computes the closed form, and overflows exactly when the modulus is 0 and the power needs more than LMAX limbs. -/
theorem powResult_eq_powValue {lmax : Nat} (hl : 1 ≤ lmax) (a : Int) (e : Nat) (m : Int) :
    powResult lmax a e m = if m = 0 ∧ lmax < nlen (a ^ e) then .error .overflow else .ok (powValue a e m) := by
  have hfuel := lt_two_pow_bitLength e
  have hpower : PowRegs.power { e := e, acc := 1, base := a } = a ^ e := one_mul _
  by_cases hm : m = 0
  · have hvalue : powValue a e m = a ^ e := by
      unfold powValue
      split_ifs with he
      · rw [he, pow_zero]
      · rfl
    subst hm
    rw [powResult, powLoop_of_modulus_zero _ _ _ hfuel ⟨nlen_one_le hl, fun h => absurd h one_ne_zero⟩, hpower, hvalue]
    simp
  · rw [if_neg fun h => hm h.1]
    by_cases he : e = 0
    · rw [powResult, powLoop_of_exponent_zero _ _ _ _ he, powValue, if_pos he]
    · rw [powResult, powLoop_of_modulus_ne_zero _ hm _ _ hfuel he, hpower, powValue, if_neg he, if_neg hm]

/-- A modulus that fits LMAX limbs makes every modular power fit (R183), so only a non-modular power is too long. -/
theorem lt_nlen_powValue_iff {lmax : Nat} (hl : 1 ≤ lmax) (a : Int) (e : Nat) {m : Int} (hm : nlen m ≤ lmax) :
    lmax < nlen (powValue a e m) ↔ m = 0 ∧ lmax < nlen (a ^ e) := by
  unfold powValue
  split_ifs with he hzero
  · simp [he, nlen_one_le hl]
  · simp [hzero]
  · have hle : ((a ^ e).tmod m).natAbs ≤ m.natAbs := by
      rw [Int.natAbs_tmod]
      exact (Nat.mod_lt _ (Int.natAbs_pos.mpr hzero)).le
    simp [hzero, (nlen_mono hle).trans hm]

/-- Under a modulus that fits, OVERFLOW is raised exactly when the closed form itself is too long. -/
theorem powResult_of_modulus_fits {lmax : Nat} (hl : 1 ≤ lmax) (a : Int) (e : Nat) {m : Int} (hm : nlen m ≤ lmax) :
    powResult lmax a e m = if lmax < nlen (powValue a e m) then .error .overflow else .ok (powValue a e m) := by
  simp only [powResult_eq_powValue hl, lt_nlen_powValue_iff hl a e hm]

/-! ### POW (43_pow.md R180, R181) -/

theorem State.nlen_val_le_of_wf {s : State} {r : Reg} (h : s.Wf r) : nlen (s.val r) ≤ s.cfg.lmax :=
  BigReg.nlen_val_le_of_wf h

theorem Config.one_le_lmax_of_wellFormed {c : Config} (h : c.wellFormed = true) : 1 ≤ c.lmax := by
  simp only [Config.wellFormed, Bool.and_eq_true, decide_eq_true_eq] at h
  omega

theorem exec_pow (rd ra rb rc : Reg) (s : State) :
    exec (.pow rd ra rb rc) s = .next (s.compute [ra, rb, rc] rd
      (if s.val rb < 0 then .error .domain
       else powResult s.cfg.lmax (s.val ra) (s.val rb).toNat (s.val rc))) := rfl

/-- OVERFLOW raised while the result is computed is the OVERFLOW that the template raises for that result. -/
theorem State.compute_overflow_early (s : State) (srcs : List Reg) (rd : Reg) (v : Int) :
    s.compute srcs rd (if s.cfg.lmax < nlen v then .error .overflow else .ok v) = s.compute srcs rd (.ok v) := by
  split_ifs with hv
  · simp only [State.compute, State.deliver, hv, if_true]
  · rfl

/-- Behind the checks of the sources and of the exponent's sign, POW is the template with the closed form as its result. -/
theorem exec_pow_of_nonneg (rd : Reg) {ra rb rc : Reg} {s : State} (hcfg : s.cfg.wellFormed = true) (hc : s.Wf rc)
    (hexp : 0 ≤ s.val rb) : exec (.pow rd ra rb rc) s =
      .next (s.compute [ra, rb, rc] rd (.ok (powValue (s.val ra) (s.val rb).toNat (s.val rc)))) := by
  rw [exec_pow, if_neg (not_lt.mpr hexp), powResult_of_modulus_fits (Config.one_le_lmax_of_wellFormed hcfg) _ _
    (State.nlen_val_le_of_wf hc), State.compute_overflow_early]

/-- Settles O16: the template on three sources behind the check of the exponent, with the closed form that the loop computes. -/
theorem powStoresPower : Obligations.PowStoresPower := by
  intro s rd ra rb rc hcfg
  have hsources : (∀ r ∈ [ra, rb, rc], s.Wf r) ↔ s.Wf ra ∧ s.Wf rb ∧ s.Wf rc := by simp
  refine ⟨decode_encode (.pow rd ra rb rc), fun hbad => ?operand, fun ha hb hc hneg => ?domain,
    fun ha hb hc hexp hv => ?overflow, fun ha hb hc hexp hv => ?fits⟩
  case operand => rw [exec_pow, s.compute_of_badSource _ rd _ (mt hsources.mp hbad), s.raise_eq_afterError]
  case domain =>
    rw [exec_pow, if_pos hneg, s.compute_of_error _ rd _ (hsources.mpr ⟨ha, hb, hc⟩), s.raise_eq_afterError]
  case overflow =>
    rw [exec_pow_of_nonneg rd hcfg hc hexp, s.compute_of_overflow _ rd _ (hsources.mpr ⟨ha, hb, hc⟩) hv,
      s.raise_eq_afterError]
  case fits =>
    rw [exec_pow_of_nonneg rd hcfg hc hexp, s.compute_of_fits _ rd _ (hsources.mpr ⟨ha, hb, hc⟩) hv]
    exact ⟨_, rfl, s.stores_writeBack_complete rd _ hcfg hv⟩

end Sys2Proof.Machine
end

section
/-! Proofs about CMP and SETI (44_compare_construct.md R200, R203). CMP turns on the three values of the RESULT word, SETI on the
immediate being read as a two's-complement integer, which always fits because LMAX ≥ 4. -/

namespace Sys2Proof.Machine

/-! ### CMP (44_compare_construct.md R200) -/

/-- The RESULT word of the sign of a difference is the three-way comparison. -/
theorem resultWord_sign_sub (x y : Int) :
    resultWord (x - y).sign = if x < y then 0xFFFFFFFF else if x = y then 0 else 1 := by
  rcases lt_trichotomy x y with hlt | rfl | hgt
  · rw [Int.sign_eq_neg_one_of_neg (sub_neg_of_lt hlt), if_pos hlt]
    rfl
  · rw [sub_self, if_neg (lt_irrefl x), if_pos rfl]
    rfl
  · rw [Int.sign_eq_one_of_pos (sub_pos_of_lt hgt), if_neg hgt.not_gt, if_neg hgt.ne']
    rfl

theorem exec_cmp_of_badSource {s : State} {ra rb : Reg} (h : ¬ (s.Wf ra ∧ s.Wf rb)) :
    exec (.cmp ra rb) s = .next (s.raise .operand) := by
  have hbad : ¬ s.sourcesWf [ra, rb] = true := by simpa [State.sourcesWf_iff] using h
  exact congrArg Host.Outcome.next (if_neg hbad)

theorem exec_cmp_of_wf {s : State} {ra rb : Reg} (ha : s.Wf ra) (hb : s.Wf rb) :
    exec (.cmp ra rb) s = .next { s with result := resultWord (s.val ra - s.val rb).sign }.complete := by
  have hwf : s.sourcesWf [ra, rb] = true := by simp [State.sourcesWf_iff, ha, hb]
  exact congrArg Host.Outcome.next (if_pos hwf)

/-- Settles O17: CMP raises OPERAND or completes with the RESULT word of the sign of the difference. -/
theorem cmpSetsResult : Obligations.CmpSetsResult := by
  intro s ra rb
  refine ⟨decode_encode (.cmp ra rb), fun hbad => ?operand, fun ha hb => ?compared⟩
  case operand => rw [exec_cmp_of_badSource hbad, s.raise_eq_afterError]
  case compared =>
    rw [exec_cmp_of_wf ha hb, resultWord_sign_sub]
    rfl

/-! ### SETI (44_compare_construct.md R203; 30_encoding.md R93) -/

/-- The value of an immediate is its two's-complement reading. -/
theorem immValue_eq_toInt (imm : BitVec 64) : immValue imm = imm.toInt := by
  rw [BitVec.toInt_eq_msb_cond, BitVec.msb_eq_getLsbD_last]
  rfl

theorem Config.four_le_lmax_of_wellFormed {c : Config} (h : c.wellFormed = true) : 4 ≤ c.lmax := by
  simp only [Config.wellFormed, Bool.and_eq_true, decide_eq_true_eq] at h
  omega

theorem State.capturedImm_of_pending {s : State} {p : Pending} (h : s.pending = some p) : s.capturedImm = p.imm := by
  simp only [State.capturedImm, h]

theorem exec_seti_of_pending (rd : Reg) {s : State} {p : Pending} (h : s.pending = some p) :
    exec (.seti rd) s = .next (s.writeBack rd p.imm.toInt).complete := by
  rw [← immValue_eq_toInt, ← State.capturedImm_of_pending h]
  rfl

/-- Settles O18: SETI writes back the captured immediate, whose at most four limbs fit in every legal configuration. -/
theorem setiStoresImmediate : Obligations.SetiStoresImmediate := by
  intro s rd p hcfg hp
  have hfits : nlen p.imm.toInt ≤ s.cfg.lmax := by
    rw [← immValue_eq_toInt]
    exact (nlen_immValue p.imm).trans (Config.four_le_lmax_of_wellFormed hcfg)
  exact ⟨decode_encode (.seti rd), _, exec_seti_of_pending rd hp, s.stores_writeBack_complete rd _ hcfg hfits⟩

end Sys2Proof.Machine
end

section
/-! Proofs about acceptance and completion (60_exceptions.md R226, R228, R229): a CMD write to the idle machine, the precise error
completion, and the priority of the errors that apply to one command. -/

namespace Sys2Proof.Machine

/-! ### Acceptance (60_exceptions.md R226) -/

theorem hostWrite_cmd (w : Word) (s : State) : hostWrite 0x00 (toLanes w) s = s.issue w :=
  hostWrite_toLanes 0x00 w s rfl

theorem State.issue_of_idle {s : State} (w : Word) (hp : s.pending = Option.none) : s.issue w = s.accept w :=
  if_neg (by simp [s.busy_of_idle hp])

/-- Settles O45: a CMD write to the idle machine is an acceptance, which clears DONE and captures {IMM_HI, IMM_LO}. -/
theorem cmdWriteWhileIdleIsAccepted : Obligations.CmdWriteWhileIdleIsAccepted := by
  rintro s _ w hp rfl
  rw [hostWrite_cmd, State.issue_of_idle w hp]
  refine ⟨rfl, ?captured, rfl, ?irq⟩
  case captured => exact congrArg some (toNat_append_eq_add s.immHi s.immLo)
  case irq => simp [State.irq]

/-! ### The two completions (60_exceptions.md R227, R228) -/

/-- A completed word leaves the error completion with a named code, or a success without a code. -/
theorem completeWord_raise_or_success {w : Word} {s t : State} (h : completeWord w s = .next t) :
    (∃ c, c ≠ .none ∧ t = s.raise c) ∨ (t.err = false ∧ t.errCode = .none) := by
  rcases completeWord_cases w s with ⟨_, _, hw⟩ | ⟨i, _, hw⟩
  · rw [hw] at h
    cases h
    exact .inl ⟨.illegal, by decide, rfl⟩
  · rcases exec_cases i s with ⟨c, hc, hx⟩ | ⟨rd, v, _, _, hx⟩ | ⟨ra, rb, _, hx⟩ <;> rw [hw, hx] at h <;> cases h
    · exact .inl ⟨c, hc, rfl⟩
    · exact .inr ⟨rfl, rfl⟩
    · exact .inr ⟨rfl, rfl⟩

/-- Settles O19: the one completion that sets ERR is `State.raise`. -/
theorem failedCommandsArePrecise : Obligations.FailedCommandsArePrecise := by
  intro s t w ht herr
  rcases completeWord_raise_or_success ht with ⟨c, hc, rfl⟩ | ⟨hsuccess, _⟩
  · exact ⟨hc, s.raise_eq_afterError c⟩
  · simp [hsuccess] at herr

theorem completeWord_err_iff {w : Word} {s t : State} (h : completeWord w s = .next t) :
    t.err = true ↔ t.errCode ≠ .none := by
  rcases completeWord_raise_or_success h with ⟨c, hc, rfl⟩ | ⟨herr, hcode⟩
  · simp [hc]
  · simp [herr, hcode]

theorem completeWord_of_decode_error {w : Word} {c : IllegalWord} (s : State) (h : decode w = .error c) :
    completeWord w s = .next (s.raise .illegal) := by
  simp [completeWord, h]

theorem completeWord_of_decode_ok {w : Word} {i : Instr} (s : State) (h : decode w = .ok i) : completeWord w s = exec i s := by
  simp [completeWord, h]

/-! ### The code of the command template (40_addsub.md R110; 60_exceptions.md R229) -/

/-- The code that is reported when the errors of a list apply, the first of them having priority. -/
def firstCode (errs : List ErrCode) : ErrCode :=
  errs.head?.getD .none

@[simp] theorem firstCode_nil : firstCode [] = .none := rfl

@[simp] theorem firstCode_cons (c : ErrCode) (errs : List ErrCode) : firstCode (c :: errs) = c := rfl

/-- The code with which the template completes once its sources are well formed. -/
def State.outcomeCode (s : State) : Except ErrCode Int → ErrCode
  | .error c => c
  | .ok v => firstCode (if s.cfg.lmax < nlen v then [.overflow] else [])

@[simp] theorem State.outcomeCode_error (s : State) (c : ErrCode) : s.outcomeCode (.error c) = c := rfl

theorem State.outcomeCode_ok (s : State) (v : Int) :
    s.outcomeCode (.ok v) = firstCode (if s.cfg.lmax < nlen v then [.overflow] else []) := rfl

theorem State.outcomeCode_of_fits {s : State} {v : Int} (hv : nlen v ≤ s.cfg.lmax) : s.outcomeCode (.ok v) = .none := by
  rw [State.outcomeCode_ok, if_neg (not_lt.mpr hv), firstCode_nil]

theorem State.compute_errCode_of_wf {s : State} {srcs : List Reg} (rd : Reg) (o : Except ErrCode Int)
    (h : ∀ r ∈ srcs, s.Wf r) : (s.compute srcs rd o).errCode = s.outcomeCode o := by
  match o with
  | .error c => rw [s.compute_of_error srcs rd c h, State.raise_errCode, State.outcomeCode_error]
  | .ok v =>
    by_cases hv : nlen v ≤ s.cfg.lmax
    · rw [s.compute_of_fits srcs rd v h hv, State.complete_errCode, State.outcomeCode_of_fits hv]
    · rw [s.compute_of_overflow srcs rd v h (not_le.mp hv), State.raise_errCode, State.outcomeCode_ok,
        if_pos (not_le.mp hv), firstCode_cons]

theorem natAbs_tmod_le_natAbs (a b : Int) : (a.tmod b).natAbs ≤ a.natAbs := by
  rw [Int.natAbs_tmod]
  exact Nat.mod_le _ _

/-- DIVZERO is the one code of a division whose result is no greater in magnitude than the well-formed dividend. -/
theorem State.outcomeCode_divide {s : State} {ra rb : Reg} {v : Int} (ha : s.Wf ra) (hle : v.natAbs ≤ (s.val ra).natAbs) :
    s.outcomeCode (if s.val rb = 0 then .error .divZero else .ok v) = firstCode (if s.val rb = 0 then [.divZero] else []) := by
  split_ifs with hzero
  · rfl
  · exact State.outcomeCode_of_fits ((nlen_mono hle).trans (State.nlen_val_le_of_wf ha))

/-- Behind DOMAIN, POW reports OVERFLOW exactly for a power without modulus that is too long: a modular power fits as its
well-formed modulus does. -/
theorem State.outcomeCode_pow {s : State} (hcfg : s.cfg.wellFormed = true) (a b : Int) {rc : Reg} (hc : s.Wf rc) :
    s.outcomeCode (if b < 0 then .error .domain else powResult s.cfg.lmax a b.toNat (s.val rc))
      = firstCode ((if b < 0 then [.domain] else [])
          ++ if s.val rc = 0 ∧ s.cfg.lmax < nlen (a ^ b.toNat) then [.overflow] else []) := by
  have hl := Config.one_le_lmax_of_wellFormed hcfg
  by_cases hneg : b < 0
  · simp [hneg]
  · rw [if_neg hneg, if_neg hneg, List.nil_append, powResult_eq_powValue hl]
    split_ifs with hlong
    · rfl
    · exact State.outcomeCode_of_fits (not_lt.mp (mt (lt_nlen_powValue_iff hl a _ (State.nlen_val_le_of_wf hc)).mp hlong))

/-! ### The priority of errors (60_exceptions.md R229) -/

/-- A completion that reports OPERAND for a source that is not well formed, and otherwise the first of the opcode's own errors,
reports the first of them all. -/
theorem errCode_eq_firstCode_append {s t : State} {srcs : List Reg} {own : List ErrCode}
    (hbad : ¬ (∀ r ∈ srcs, s.Wf r) → t.errCode = .operand) (hwf : (∀ r ∈ srcs, s.Wf r) → t.errCode = firstCode own) :
    t.errCode = firstCode ((if s.sourcesWf srcs then [] else [.operand]) ++ own) := by
  by_cases h : ∀ r ∈ srcs, s.Wf r
  · rw [if_pos ((s.sourcesWf_iff srcs).mpr h), hwf h, List.nil_append]
  · rw [if_neg (mt (s.sourcesWf_iff srcs).mp h), hbad h, List.singleton_append, firstCode_cons]

/-- The template reports the first error, if it does so once its sources are well formed. -/
theorem State.compute_errCode {s : State} {srcs : List Reg} {o : Except ErrCode Int} {own : List ErrCode} (rd : Reg)
    (hown : (∀ r ∈ srcs, s.Wf r) → s.outcomeCode o = firstCode own) :
    (s.compute srcs rd o).errCode = firstCode ((if s.sourcesWf srcs then [] else [.operand]) ++ own) := by
  refine errCode_eq_firstCode_append (fun hbad => ?bad) fun hwf => ?wf
  case bad => rw [s.compute_of_badSource srcs rd o hbad, State.raise_errCode]
  case wf => rw [State.compute_errCode_of_wf rd o hwf, hown hwf]

/-- A command reports the first of the errors that apply to it: each command's list is OPERAND and then the errors of its own
checks, so every case but SETI turns on the latter alone. -/
theorem exec_errCode {i : Instr} {s t : State} (hcfg : s.cfg.wellFormed = true) (h : exec i s = .next t) :
    t.errCode = firstCode (applicableErrors s i) := by
  cases i with
  | add rd ra rb =>
    cases (exec_add rd ra rb s).symm.trans h
    exact State.compute_errCode rd fun _ => s.outcomeCode_ok _
  | sub rd ra rb =>
    cases (exec_sub rd ra rb s).symm.trans h
    exact State.compute_errCode rd fun _ => s.outcomeCode_ok _
  | mul rd ra rb =>
    cases (exec_mul rd ra rb s).symm.trans h
    exact State.compute_errCode rd fun _ => s.outcomeCode_ok _
  | div rd ra rb =>
    cases (exec_div rd ra rb s).symm.trans h
    exact State.compute_errCode rd fun hwf => State.outcomeCode_divide (hwf ra (by simp)) (Int.natAbs_tdiv_le_natAbs _ _)
  | mod rd ra rb =>
    cases (exec_mod rd ra rb s).symm.trans h
    exact State.compute_errCode rd fun hwf => State.outcomeCode_divide (hwf ra (by simp)) (natAbs_tmod_le_natAbs _ _)
  | pow rd ra rb rc =>
    cases (exec_pow rd ra rb rc s).symm.trans h
    exact State.compute_errCode rd fun hwf => State.outcomeCode_pow hcfg _ _ (hwf rc (by simp))
  | cmp ra rb =>
    refine errCode_eq_firstCode_append (srcs := [ra, rb]) (fun hbad => ?bad) fun hwf => ?wf
    case bad =>
      cases (exec_cmp_of_badSource (by simpa using hbad)).symm.trans h
      rfl
    case wf =>
      cases (exec_cmp_of_wf (hwf ra (by simp)) (hwf rb (by simp))).symm.trans h
      rfl
  | seti rd =>
    cases h
    rfl

/-- Settles O20: a word that does not decode raises ILLEGAL, and the checks of a command are made in the order of their priority. -/
theorem firstApplicableErrorIsReported : Obligations.FirstApplicableErrorIsReported := by
  intro s t w hcfg h
  refine ⟨fun c hd => ?illegal, fun i hd => ?command, completeWord_err_iff h⟩
  case illegal =>
    cases (completeWord_of_decode_error s hd).symm.trans h
    rfl
  case command => exact exec_errCode hcfg ((completeWord_of_decode_ok s hd).symm.trans h)

end Sys2Proof.Machine
end

section
/-! Proofs about reset (70_reset_and_hazards.md R260). -/

namespace Sys2Proof.Machine

/-- R260, from whatever state the reset is taken. BUSY and IRQ are 0 because no command is pending and IE is 0. -/
theorem State.resetBau_atReset (s : State) : s.resetBau.AtReset where
  regs r := by simp [BigReg.zero]
  cmd := s.resetBau_cmd
  done := s.resetBau_done
  err := s.resetBau_err
  ovr := s.resetBau_ovr
  hostErr := s.resetBau_hostErr
  errCode := s.resetBau_errCode
  ie := s.resetBau_ie
  result := s.resetBau_result
  immLo := s.resetBau_immLo
  immHi := s.resetBau_immHi
  lreg := s.resetBau_lreg
  lidx := s.resetBau_lidx
  pending := s.resetBau_pending
  busy := s.resetBau.busy_of_idle s.resetBau_pending
  irq := by simp [State.irq]

/-- Reset changes nothing in the state that reset left. -/
theorem State.resetBau_resetOf (cfg : Config) : (State.resetOf cfg).resetBau = State.resetOf cfg := rfl

theorem State.resetOf_atReset (cfg : Config) : (State.resetOf cfg).AtReset := by
  rw [← State.resetBau_resetOf]
  exact State.resetBau_atReset _

/-- Settles O57: a hard-reset turn is `State.resetBau` on the rest of the turns, and the state right after reset is a fixed point of
it. -/
theorem hardResetLeavesResetState : Obligations.HardResetLeavesResetState := by
  refine ⟨State.resetOf_atReset Config.default, State.resetOf_atReset, fun s rest hturn => ?hardReset⟩
  case hardReset => exact ⟨_, step_of_hardReset s rest hturn, State.resetBau_atReset _, rfl, rfl⟩

end Sys2Proof.Machine
end

section
/-! Proofs about the encoding (30_encoding.md): decoding and encoding are inverse to each other, and every word has at most one
row of the opcode map. -/

namespace Sys2Proof.Machine

/-- Settles O1, by `decode_encode`. -/
theorem decodeOfEncode : Obligations.DecodeOfEncode :=
  decode_encode

/-- Settles O2, by `eq_encode_of_decode`. -/
theorem encodeOfDecode : Obligations.EncodeOfDecode := by
  intro w i h
  exact (eq_encode_of_decode h).symm

/-- Every mask holds the whole opcode byte, so the row that covers a word has the word's opcode. -/
theorem OpcodeRow.opcode_of_covers {row : OpcodeRow} (hrow : row ∈ opcodeMap) {w : Word} (h : row.covers w = true) :
    row.pattern &&& 0xFF = w &&& 0xFF := by
  have hmask : ∀ r ∈ opcodeMap, r.mask &&& 0xFF = 0xFF := by decide
  rw [← beq_iff_eq.mp h, BitVec.and_assoc, hmask row hrow]

/-- No two rows have the same opcode. -/
theorem mnemonic_eq_of_opcode_eq : ∀ r₁ ∈ opcodeMap, ∀ r₂ ∈ opcodeMap,
    r₁.pattern &&& 0xFF = r₂.pattern &&& 0xFF → r₁.mnemonic = r₂.mnemonic := by
  decide

/-- Settles O5: two rows that cover one word both have its opcode. -/
theorem rowsDoNotOverlap : Obligations.RowsDoNotOverlap := by
  intro w r₁ h₁ r₂ h₂ hc₁ hc₂
  have hopcode := (OpcodeRow.opcode_of_covers h₁ hc₁).trans (OpcodeRow.opcode_of_covers h₂ hc₂).symm
  exact mnemonic_eq_of_opcode_eq r₁ h₁ r₂ h₂ hopcode

/-- Settles O6, by evaluation of the decoder on the ten words. -/
theorem writtenOutWordsDecode : Obligations.WrittenOutWordsDecode :=
  ⟨rfl, rfl, rfl, rfl, rfl, rfl, rfl, rfl, rfl, rfl⟩

end Sys2Proof.Machine
end

section
/-! Proofs about the step (60_exceptions.md R227, R230, R243): whose turn it is, when the machine stops, and that no command stays
pending. -/

namespace Sys2Proof.Machine

/-! ### The turn taken -/

/-- The state without its first turn to come; with none to come, the state itself. -/
def State.dropTurn (s : State) : State :=
  { s with agenda := s.agenda.tail }

theorem State.dropTurn_of_empty {s : State} (h : s.agenda = []) : s.dropTurn = s := by
  rw [State.dropTurn, h, List.tail_nil, ← h]

theorem State.dropTurn_of_cons {s : State} {turn : Turn} {rest : List Turn} (h : s.agenda = turn :: rest) :
    s.dropTurn = { s with agenda := rest } := by
  rw [State.dropTurn, h, List.tail_cons]

/-- Everything a step can be: the sequencer's turn, a host's access or a hard reset, in the state without that turn. -/
theorem step_cases (s : State) :
    ((s.agenda = [] ∨ ∃ rest, s.agenda = .sequencer :: rest) ∧ step s = sequencerTurn s.dropTurn)
      ∨ (∃ a rest, s.agenda = .host a :: rest ∧ step s = hostTurn a s.dropTurn)
      ∨ ((∃ rest, s.agenda = .hardReset :: rest) ∧ step s = .next s.dropTurn.resetBau) := by
  match h : s.agenda with
  | [] => exact .inl ⟨.inl rfl, by rw [State.dropTurn_of_empty h, step_of_empty s h]⟩
  | .sequencer :: rest => exact .inl ⟨.inr ⟨rest, rfl⟩, by rw [State.dropTurn_of_cons h, step_of_sequencer s rest h]⟩
  | .host a :: rest => exact .inr (.inl ⟨a, rest, rfl, by rw [State.dropTurn_of_cons h, step_of_host s a rest h]⟩)
  | .hardReset :: rest => exact .inr (.inr ⟨⟨rest, rfl⟩, by rw [State.dropTurn_of_cons h, step_of_hardReset s rest h]⟩)

theorem sequencerTurn_of_pending {s : State} {p : Pending} (h : s.pending = some p) :
    sequencerTurn s = completeWord p.word s := by
  simp only [sequencerTurn, h]

theorem sequencerTurn_of_idle {s : State} (h : s.pending = Option.none) : sequencerTurn s = .next s := by
  simp only [sequencerTurn, h]

/-- The sequencer's turn at a pending word: its command, or the error completion ILLEGAL. -/
theorem sequencerTurn_of_pending_word {s : State} {p : Pending} (h : s.pending = some p) :
    (∀ i, decode p.word = .ok i → sequencerTurn s = exec i s)
      ∧ ∀ c, decode p.word = .error c → sequencerTurn s = .next (afterError s .illegal) := by
  rw [sequencerTurn_of_pending h]
  exact ⟨fun _ hi => completeWord_of_decode_ok s hi, fun _ hc => completeWord_of_decode_error s hc⟩

/-- Settles O7: both with and without a turn of its own the sequencer completes the pending word. -/
theorem stepRunsDecodedCommand : Obligations.StepRunsDecodedCommand := by
  intro s p hp
  have hempty := sequencerTurn_of_pending_word hp
  have hturn (rest : List Turn) := sequencerTurn_of_pending_word (s := { s with agenda := rest }) hp
  refine ⟨fun i hi => ⟨fun h => ?_, fun rest h => ?_⟩, fun c hc => ⟨fun h => ?_, fun rest h => ?_⟩⟩
  · rw [step_of_empty s h, hempty.1 i hi]
  · rw [step_of_sequencer s rest h, (hturn rest).1 i hi]
  · rw [step_of_empty s h, hempty.2 c hc]
  · rw [step_of_sequencer s rest h, (hturn rest).2 c hc]

/-- Settles O8: a step with a turn is that turn's action in the state without it. -/
theorem stepTakesHostTurn : Obligations.StepTakesHostTurn := by
  intro s rest
  refine ⟨fun addr bytes h hwin => ?read, fun addr data h hwin => ?write, fun h hidle => ?idle⟩
  case read => exact (step_of_host s _ rest h).trans (hostTurn_read addr bytes { s with agenda := rest } hwin)
  case write => exact (step_of_host s _ rest h).trans (hostTurn_write addr data { s with agenda := rest } hwin)
  case idle => exact (step_of_sequencer s rest h).trans (sequencerTurn_of_idle (s := { s with agenda := rest }) hidle)

/-! ### When the machine stops (60_exceptions.md R243) -/

/-- A step either stops, at a host access outside the window, or has a next state. -/
theorem step_stops_or_next (s : State) :
    (∃ a rest, s.agenda = .host a :: rest ∧ inWindow s.cfg a = false ∧ step s = .fault (.outsideWindow a.addr))
      ∨ ((∀ a rest, s.agenda = .host a :: rest → inWindow s.cfg a = true) ∧ ∃ t, step s = .next t) := by
  rcases step_cases s with ⟨hturn, hstep⟩ | ⟨a, rest, hturn, hstep⟩ | ⟨⟨rest, hturn⟩, hstep⟩
  · rw [hstep]
    refine .inr ⟨fun a rest h => ?_, sequencerTurn_next _⟩
    rcases hturn with hturn | ⟨_, hturn⟩ <;> simp [hturn] at h
  · rw [hstep]
    by_cases hwin : inWindow s.cfg a = true
    · refine .inr ⟨fun b rest' h => ?_, hostTurn_next a _ hwin⟩
      cases hturn.symm.trans h
      exact hwin
    · rw [Bool.not_eq_true] at hwin
      exact .inl ⟨a, rest, hturn, hwin, hostTurn_outside a _ hwin⟩
  · refine .inr ⟨fun a rest' h => ?_, _, hstep⟩
    simp [hturn] at h

/-- Settles O9, by the two cases of `step_stops_or_next`. -/
theorem stepStopsOnlyOutsideWindow : Obligations.StepStopsOnlyOutsideWindow := by
  intro s
  rcases step_stops_or_next s with ⟨a, rest, hturn, hout, hstep⟩ | ⟨hin, t, hstep⟩
  · rw [hstep]
    refine ⟨fun r h => (nomatch h), fun f => ⟨fun h => ?_, ?_⟩⟩
    · cases h
      exact ⟨a, rest, hturn, hout, rfl⟩
    · rintro ⟨b, rest', hturn', _, rfl⟩
      cases hturn.symm.trans hturn'
      rfl
  · rw [hstep]
    refine ⟨fun r h => (nomatch h), fun f => ⟨fun h => (nomatch h), ?_⟩⟩
    rintro ⟨a, rest, hturn, hout, _⟩
    simp [hin a rest hturn] at hout

/-! ### What a turn can do -/

/-- Whatever a word completes with, only the two completions' fields, one register and RESULT change. -/
theorem completeWord_frame {w : Word} {s t : State} (h : completeWord w s = .next t) :
    t = { s with regs := t.regs, result := t.result, pending := Option.none, done := true, err := t.err,
                 errCode := t.errCode } := by
  rcases completeWord_cases w s with ⟨_, _, hw⟩ | ⟨i, _, hw⟩
  · cases hw.symm.trans h
    rfl
  · rcases exec_cases i s with ⟨c, _, hx⟩ | ⟨rd, v, _, _, hx⟩ | ⟨ra, rb, _, hx⟩
    all_goals
      cases (hw.trans hx).symm.trans h
      rfl

/-- A host read changes nothing but HOSTERR and the answer. -/
theorem hostRead_frame (off bytes : Nat) (s : State) :
    hostRead off bytes s
      = { s with hostErr := (hostRead off bytes s).hostErr, readData := (hostRead off bytes s).readData } := by
  unfold hostRead
  split_ifs
  · rcases mmioRead_state (mmioAt off) s with h | h
    all_goals simp only [h, State.refuse]
  · rfl

/-- Everything a 32-bit write of v to register r of the window can do (20_memory.md R70). -/
inductive WriteEffect (r : MmioReg) (v : Word) (s : State) : State → Prop
  /-- Fields change that no completion writes, CTRL.IE apart. -/
  | plain (ovr hostErr : Bool) (immLo immHi : Word) (lreg : Reg) (lidx : BitVec 16) :
      WriteEffect r v s
        { s with ovr := ovr, hostErr := hostErr, immLo := immLo, immHi := immHi, lreg := lreg, lidx := lidx }
  /-- CTRL.IE is written. -/
  | enable (hr : r = .ctrl) (b : Bool) : WriteEffect r v s { s with ie := b }
  /-- The idle machine accepts a command. -/
  | accept (hidle : s.pending = Option.none) : WriteEffect r v s (s.accept v)
  /-- Status bits are cleared. -/
  | clear : WriteEffect r v s (s.clearStatus v)
  /-- The soft reset. -/
  | softReset (hr : r = .ctrl) (hv : v = 2 ∨ v = 3) : WriteEffect r v s s.resetBau
  /-- A port of the idle machine writes a register, and the registers keep their form. -/
  | port (hidle : s.pending = Option.none) (regs : Vector BigReg 16)
      (hok : (∀ q, (s.reg q).Ok s.cfg.lmax) → ∀ q, (State.reg { s with regs := regs } q).Ok s.cfg.lmax) :
      WriteEffect r v s { s with regs := regs }

theorem WriteEffect.of_refused (r : MmioReg) (v : Word) (s : State) : WriteEffect r v s s.refuse :=
  .plain s.ovr true s.immLo s.immHi s.lreg s.lidx

theorem WriteEffect.of_ignored (r : MmioReg) (v : Word) (s : State) : WriteEffect r v s s :=
  .plain s.ovr s.hostErr s.immLo s.immHi s.lreg s.lidx

theorem issue_effect (v : Word) (s : State) : WriteEffect .cmd v s (s.issue v) := by
  unfold State.issue
  split_ifs with hbusy
  · exact .plain true s.hostErr s.immLo s.immHi s.lreg s.lidx
  · exact .accept (by simpa [s.busy_iff] using hbusy)

theorem writeCtrl_effect (v : Word) (s : State) : WriteEffect .ctrl v s (writeCtrl v s) := by
  by_cases h4 : 4 ≤ v.toNat
  · rw [writeCtrl_of_refused v s h4]
    exact .of_refused _ v s
  · rw [writeCtrl_of_lt v s (not_le.mp h4)]
    split_ifs with h2
    · have hv : v.toNat = 2 ∨ v.toNat = 3 := by omega
      exact .softReset rfl (hv.imp BitVec.eq_of_toNat_eq BitVec.eq_of_toNat_eq)
    · exact .enable rfl _

theorem writeLreg_effect (v : Word) (s : State) : WriteEffect .lreg v s (writeLreg v s) := by
  unfold writeLreg
  split_ifs
  · exact .of_refused _ v s
  · exact .plain s.ovr s.hostErr s.immLo s.immHi _ s.lidx

theorem writeLidx_effect (v : Word) (s : State) : WriteEffect .lidx v s (writeLidx v s) := by
  unfold writeLidx
  split_ifs
  · exact .of_refused _ v s
  · exact .plain s.ovr s.hostErr s.immLo s.immHi s.lreg _

theorem writeLdata_effect (v : Word) (s : State) : WriteEffect .ldata v s (writeLdata v s) := by
  by_cases href : s.pending ≠ Option.none ∨ s.cfg.lmax ≤ s.lidx.toNat ∨ radix ≤ v.toNat
  · rw [writeLdata_of_refusal v s href]
    exact .of_refused _ v s
  · have hok := writeLdata_ok v s
    simp only [not_or, not_le, not_not] at href
    obtain ⟨hidle, hi, hv⟩ := href
    rw [writeLdata_of_accepted v s hidle hi hv] at hok ⊢
    exact .port hidle _ hok

theorem writeLmeta_effect (v : Word) (s : State) : WriteEffect .lmeta v s (writeLmeta v s) := by
  by_cases href : s.pending ≠ Option.none ∨ v.toNat / 2 ^ 16 % 2 ^ 15 ≠ 0 ∨ s.cfg.lmax < v.toNat % 2 ^ 16
  · rw [writeLmeta_of_refusal v s href]
    exact .of_refused _ v s
  · have hok := writeLmeta_ok v s
    simp only [not_or, not_lt, not_not] at href
    obtain ⟨hidle, hres, hlen⟩ := href
    rw [writeLmeta_of_accepted v s hidle hres hlen] at hok ⊢
    exact .port hidle _ hok

theorem mmioWrite_effect (r : MmioReg) (v : Word) (s : State) : WriteEffect r v s (mmioWrite r v s) := by
  cases r with
  | cmd => exact issue_effect v s
  | status => exact .clear
  | ctrl => exact writeCtrl_effect v s
  | immLo => exact .plain s.ovr s.hostErr v s.immHi s.lreg s.lidx
  | immHi => exact .plain s.ovr s.hostErr s.immLo v s.lreg s.lidx
  | lreg => exact writeLreg_effect v s
  | lidx => exact writeLidx_effect v s
  | ldata => exact writeLdata_effect v s
  | lmeta => exact writeLmeta_effect v s
  | result | id | param | radix | reserved => exact .of_ignored _ v s

/-- Everything a host access can do: it changes HOSTERR and the answer only, or it is a 32-bit write to a register. -/
theorem hostTurn_cases {a : HostAccess} {s t : State} (h : hostTurn a s = .next t) :
    (∃ hostErr readData, t = { s with hostErr := hostErr, readData := readData })
      ∨ ∃ off v, a = .write (s.cfg.mmioBase + off) (toLanes v) ∧ WriteEffect (mmioAt off) v s t := by
  by_cases hwin : inWindow s.cfg a = true
  · cases a with
    | read addr bytes =>
      cases (hostTurn_read addr bytes s hwin).symm.trans h
      exact .inl ⟨_, _, hostRead_frame _ bytes s⟩
    | write addr data =>
      cases (hostTurn_write addr data s hwin).symm.trans h
      by_cases hdef : data.length ≠ 4 ∨ (addr - s.cfg.mmioBase) % 4 ≠ 0
      · exact .inl ⟨true, _, hostWrite_of_undefined _ data s hdef⟩
      · simp only [not_or, not_not] at hdef
        obtain ⟨hlen, halign⟩ := hdef
        have hbase : s.cfg.mmioBase ≤ addr := ((inWindow_iff _ _).mp hwin).1
        refine .inr ⟨addr - s.cfg.mmioBase, ofLanes data, ?_, ?_⟩
        · rw [toLanes_ofLanes data hlen, Nat.add_sub_cancel' hbase]
        · rw [← toLanes_ofLanes data hlen, hostWrite_toLanes _ _ s halign, ofLanes_toLanes]
          exact mmioWrite_effect _ _ s
  · rw [hostTurn_outside a s (by simpa using hwin)] at h
    cases h

/-! ### No command stays pending (60_exceptions.md R230) -/

theorem hostTurn_keeps_agenda {a : HostAccess} {s t : State} (h : hostTurn a s = .next t) :
    t.cfg = s.cfg ∧ t.agenda = s.agenda := by
  rcases hostTurn_cases h with ⟨_, _, rfl⟩ | ⟨_, _, _, heff⟩
  · exact ⟨rfl, rfl⟩
  · cases heff <;> exact ⟨rfl, rfl⟩

/-- After the sequencer's turn no command is pending. -/
theorem sequencerTurn_leaves_idle {s t : State} (h : sequencerTurn s = .next t) :
    t.pending = Option.none ∧ t.cfg = s.cfg ∧ t.agenda = s.agenda := by
  cases hp : s.pending with
  | none =>
    cases (sequencerTurn_of_idle hp).symm.trans h
    exact ⟨hp, rfl, rfl⟩
  | some p =>
    rw [completeWord_frame ((sequencerTurn_of_pending hp).symm.trans h)]
    exact ⟨rfl, rfl, rfl⟩

/-- A step takes one turn and keeps the configuration. -/
theorem step_takes_turn {s t : State} (h : step s = .next t) : t.cfg = s.cfg ∧ t.agenda = s.agenda.tail := by
  rcases step_cases s with ⟨_, hstep⟩ | ⟨a, _, _, hstep⟩ | ⟨_, hstep⟩
  · exact (sequencerTurn_leaves_idle (hstep.symm.trans h)).2
  · exact hostTurn_keeps_agenda (hstep.symm.trans h)
  · cases hstep.symm.trans h
    exact ⟨rfl, rfl⟩

/-- A run of one step more, when the step has a next state. -/
theorem run_succ_of_step (M : Host.Core) (n : Nat) {s t : M.State} (h : M.step s = .next t) :
    M.run (n + 1) s = M.run n t := by
  simp only [Host.Core.run, h]

theorem safeRun_succ {n : Nat} {s t u : State} (hstep : step s = .next t) (hrun : SafeRun n t u) : SafeRun (n + 1) s u :=
  (run_succ_of_step core n hstep).trans hrun

theorem safeRun_zero (s : State) : SafeRun 0 s s := rfl

/-- With every access to come in the window, a step has a next state, of which the same holds. -/
theorem State.HostInWindow.step {s : State} (h : s.HostInWindow) : ∃ t, step s = .next t ∧ t.HostInWindow := by
  rcases step_stops_or_next s with ⟨a, rest, hturn, hout, _⟩ | ⟨_, t, hstep⟩
  · have hin := h a (by simp [hturn])
    simp [hin] at hout
  · obtain ⟨hcfg, hagenda⟩ := step_takes_turn hstep
    refine ⟨t, hstep, fun a ha => ?_⟩
    rw [hcfg]
    exact h a (List.mem_of_mem_tail (hagenda ▸ ha))

/-- Settles O10, by induction on the number of turns to come: the last step is the sequencer's, which leaves no command
pending. -/
theorem noCommandStaysPending : Obligations.NoCommandStaysPending := by
  intro s
  induction hn : s.agenda.length generalizing s with
  | zero =>
    intro _
    have hempty : s.agenda = [] := List.length_eq_zero_iff.mp hn
    obtain ⟨t, ht⟩ := sequencerTurn_next s
    obtain ⟨hidle, _, hagenda⟩ := sequencerTurn_leaves_idle ht
    exact ⟨t, safeRun_succ ((step_of_empty s hempty).trans ht) (safeRun_zero t), hidle, hagenda.trans hempty⟩
  | succ n ih =>
    intro hwin
    obtain ⟨t, hstep, hwin'⟩ := hwin.step
    have hlen : t.agenda.length = n := by rw [(step_takes_turn hstep).2, List.length_tail, hn, Nat.add_sub_cancel]
    obtain ⟨u, hrun, hdone⟩ := ih t hlen hwin'
    exact ⟨u, safeRun_succ hstep hrun, hdone⟩

end Sys2Proof.Machine
end

section
/-! Proofs about the commands as a whole (40_addsub.md R110; 60_exceptions.md R227, R228): what every command leaves unchanged, that
well-formed registers stay so, and the division law of a DIV and a MOD. -/

namespace Sys2Proof.Machine

/-- Settles O21: each of the three things that a command can do writes the completion's fields, its destination or RESULT. -/
theorem commandFrame : Obligations.CommandFrame := by
  intro i s t h
  rcases exec_cases i s with ⟨c, _, hx⟩ | ⟨rd, v, hdest, _, hx⟩ | ⟨ra, rb, hcmp, hx⟩ <;> cases hx.symm.trans h
  · exact ⟨rfl, fun r _ => s.reg_raise c r, fun _ => rfl⟩
  · refine ⟨rfl, fun r hr => ?_, fun _ => rfl⟩
    have hne : r ≠ rd := fun heq => hr (heq ▸ hdest)
    rw [State.reg_complete, s.reg_writeBack_of_ne v rd r hne]
  · exact ⟨rfl, fun r _ => rfl, fun hne => absurd hcmp (hne ra rb)⟩

/-- What a command writes back fits: an immediate needs at most four limbs, and LMAX is at least 4. -/
theorem nlen_le_lmax_of_wellFormed {s : State} {v : Int} (hcfg : s.cfg.wellFormed = true)
    (h : nlen v ≤ s.cfg.lmax ∨ nlen v ≤ 4) : nlen v ≤ s.cfg.lmax :=
  h.elim id fun h4 => h4.trans (Config.four_le_lmax_of_wellFormed hcfg)

/-- A register file with one register replaced has a property if the new register and the other ones have it. -/
theorem State.forall_reg_setReg {P : BigReg → Prop} (s : State) (d : Reg) (b : BigReg) (hb : P b)
    (h : ∀ r, r ≠ d → P (s.reg r)) (r : Reg) : P ((s.setReg d b).reg r) := by
  by_cases hr : r = d
  · rw [hr, State.reg_setReg_same]
    exact hb
  · rw [State.reg_setReg_of_ne s b d r hr]
    exact h r hr

/-- Settles O23: the one register that a command can write takes the encoding of a value that fits. -/
theorem commandsKeepRegistersWf : Obligations.CommandsKeepRegistersWf := by
  intro i s t hcfg hwf h
  rcases exec_cases i s with ⟨c, _, hx⟩ | ⟨rd, v, _, hv, hx⟩ | ⟨ra, rb, _, hx⟩ <;> cases hx.symm.trans h
  · exact hwf
  · have hfits := nlen_le_lmax_of_wellFormed hcfg hv
    have henc := enc_wf s.cfg.lmax v (Config.lmax_lt_of_wellFormed hcfg) hfits
    exact State.forall_reg_setReg (P := fun b => b.wf s.cfg.lmax = true) s rd _ henc fun r _ => hwf r
  · exact hwf

/-! ### The division law (42_divide.md R164) -/

/-- A zero-checked division that completes without ERR had a divisor other than 0 and stored its result. -/
theorem val_of_compute_divide {i : Instr} {s t : State} {rd ra rb : Reg} {v : Int} (hcfg : s.cfg.wellFormed = true)
    (hle : v.natAbs ≤ (s.val ra).natAbs)
    (hexec : exec i s = .next (s.compute [ra, rb] rd (if s.val rb = 0 then .error .divZero else .ok v)))
    (h : exec i s = .next t) (herr : t.err = false) : s.val rb ≠ 0 ∧ t.val rd = v := by
  obtain ⟨hoperand, hzero, hstores⟩ := exec_of_compute_divide hcfg hle hexec
  by_cases hwf : s.Wf ra ∧ s.Wf rb
  · obtain ⟨ha, hb⟩ := hwf
    by_cases hdivisor : s.val rb = 0
    · cases (hzero ha hb hdivisor).symm.trans h
      cases herr
    · obtain ⟨t', ht', _, _, _, hval, _⟩ := hstores ha hb hdivisor
      cases ht'.symm.trans h
      exact ⟨hdivisor, hval⟩
  · cases (hoperand hwf).symm.trans h
    cases herr

/-- Settles O24: DIV and MOD that succeed store the truncating quotient and remainder. -/
theorem divModLaw : Obligations.DivModLaw := by
  intro s t u q r ra rb hcfg hdiv hmod ht hu
  obtain ⟨hb, hq⟩ := val_of_compute_divide hcfg (Int.natAbs_tdiv_le_natAbs _ _) (exec_div q ra rb s) hdiv ht
  obtain ⟨_, hr⟩ := val_of_compute_divide hcfg (natAbs_tmod_le_natAbs _ _) (exec_mod r ra rb s) hmod hu
  rw [hq, hr]
  refine ⟨Int.tdiv_mul_add_tmod _ _, ?_⟩
  rw [Int.abs_eq_natAbs, Int.abs_eq_natAbs, Int.natAbs_tmod]
  exact_mod_cast Nat.mod_lt _ (Int.natAbs_pos.mpr hb)

end Sys2Proof.Machine
end

section
/-! Proofs about the invariant (10_state.md R20, R21, R30, R35; 60_exceptions.md R226, R228): reset has it and every step keeps it. -/

namespace Sys2Proof.Machine

/-! ### Reset -/

theorem Config.lmax_le_of_wellFormed {c : Config} (h : c.wellFormed = true) : c.lmax ≤ 512 := by
  simp only [Config.wellFormed, Bool.and_eq_true, decide_eq_true_eq] at h
  omega

theorem State.resetBau_inv (s : State) (h : s.cfg.wellFormed = true) : s.resetBau.Inv where
  config := h
  regs r := by
    rw [State.reg_resetBau]
    exact BigReg.zero_ok _
  busy _ hp := by cases hp
  named herr := by cases herr
  result := .inr (.inl rfl)

/-- Settles O59: the state after reset is the reset of itself. -/
theorem invariantAtReset : Obligations.InvariantAtReset := by
  have hreset : ∀ cfg : Config, cfg.wellFormed = true → (State.resetOf cfg).Inv := fun cfg h => by
    rw [← State.resetBau_resetOf]
    exact State.resetBau_inv _ h
  exact ⟨hreset Config.default (by decide), hreset⟩

/-! ### The sequencer's turn -/

/-- The three completions keep the invariant: no command is pending after them. -/
theorem State.Inv.raise {s : State} (h : s.Inv) {c : ErrCode} (hc : c ≠ .none) : (s.raise c).Inv where
  config := h.config
  regs := h.regs
  busy _ hp := by cases hp
  named _ := hc
  result := h.result

theorem State.Inv.writeBack_complete {s : State} (h : s.Inv) (rd : Reg) {v : Int} (hv : nlen v ≤ s.cfg.lmax) :
    (s.writeBack rd v).complete.Inv where
  config := h.config
  regs := s.writeBack_ok rd v (Config.lmax_le_of_wellFormed h.config) hv h.regs
  busy _ hp := by cases hp
  named herr := by cases herr
  result := h.result

theorem resultWord_sign_mem (x y : Int) :
    resultWord (x - y).sign = 0xFFFFFFFF ∨ resultWord (x - y).sign = 0 ∨ resultWord (x - y).sign = 1 := by
  rw [resultWord_sign_sub]
  split_ifs <;> simp

theorem State.Inv.compare_complete {s : State} (h : s.Inv) (x y : Int) :
    { s with result := resultWord (x - y).sign }.complete.Inv where
  config := h.config
  regs := h.regs
  busy _ hp := by cases hp
  named herr := by cases herr
  result := resultWord_sign_mem x y

theorem exec_keeps_inv {i : Instr} {s t : State} (h : s.Inv) (hexec : exec i s = .next t) : t.Inv := by
  rcases exec_cases i s with ⟨c, hc, hx⟩ | ⟨rd, v, _, hv, hx⟩ | ⟨ra, rb, _, hx⟩ <;> cases hx.symm.trans hexec
  · exact h.raise hc
  · exact h.writeBack_complete rd (nlen_le_lmax_of_wellFormed h.config hv)
  · exact h.compare_complete _ _

theorem sequencerTurn_keeps_inv {s t : State} (h : s.Inv) (hturn : sequencerTurn s = .next t) : t.Inv := by
  cases hp : s.pending with
  | none =>
    cases (sequencerTurn_of_idle hp).symm.trans hturn
    exact h
  | some p =>
    have hw := (sequencerTurn_of_pending hp).symm.trans hturn
    rcases completeWord_cases p.word s with ⟨_, _, hx⟩ | ⟨i, _, hx⟩
    · cases hx.symm.trans hw
      exact h.raise (by decide)
    · exact exec_keeps_inv h (hx.symm.trans hw)

/-! ### The host's turn -/

/-- The invariant speaks of the configuration, the registers, the command and its status, and RESULT only. -/
theorem State.Inv.of_eq {s t : State} (h : s.Inv) (hcfg : t.cfg = s.cfg) (hregs : t.regs = s.regs)
    (hcommand : t.pending = s.pending ∧ t.cmd = s.cmd) (hstatus : t.done = s.done ∧ t.err = s.err ∧ t.errCode = s.errCode)
    (hresult : t.result = s.result) : t.Inv := by
  obtain ⟨hpending, hcmd⟩ := hcommand
  obtain ⟨hdone, herr, hcode⟩ := hstatus
  have hreg : ∀ r, t.reg r = s.reg r := fun r => congrArg (·.get r) hregs
  constructor
  · rw [hcfg]
    exact h.config
  · intro r
    rw [hcfg, hreg]
    exact h.regs r
  · rw [hpending, hcmd, hdone, herr, hcode]
    exact h.busy
  · rw [herr, hcode]
    exact h.named
  · rw [hresult]
    exact h.result

theorem State.Inv.accept {s : State} (h : s.Inv) (w : Word) : (s.accept w).Inv where
  config := h.config
  regs := h.regs
  busy p hp := by
    cases hp
    exact ⟨rfl, rfl, rfl, rfl⟩
  named herr := by cases herr
  result := h.result

theorem State.Inv.clearStatus {s : State} (h : s.Inv) (v : Word) : (s.clearStatus v).Inv where
  config := h.config
  regs := h.regs
  busy p hp := by
    obtain ⟨hcmd, hdone, herr, hcode⟩ := h.busy p hp
    exact ⟨hcmd, by simp [hdone], by simp [herr], hcode⟩
  named herr := h.named (Bool.and_elim_left herr)
  result := h.result

theorem WriteEffect.keeps_inv {r : MmioReg} {v : Word} {s t : State} (h : s.Inv) (heff : WriteEffect r v s t) : t.Inv := by
  cases heff with
  | plain => exact h.of_eq rfl rfl ⟨rfl, rfl⟩ ⟨rfl, rfl, rfl⟩ rfl
  | enable => exact h.of_eq rfl rfl ⟨rfl, rfl⟩ ⟨rfl, rfl, rfl⟩ rfl
  | accept => exact h.accept v
  | clear => exact h.clearStatus v
  | softReset => exact s.resetBau_inv h.config
  | port hidle regs hok => exact ⟨h.config, hok h.regs, h.busy, h.named, h.result⟩

theorem hostTurn_keeps_inv {a : HostAccess} {s t : State} (h : s.Inv) (hturn : hostTurn a s = .next t) : t.Inv := by
  rcases hostTurn_cases hturn with ⟨_, _, rfl⟩ | ⟨_, _, _, heff⟩
  · exact h.of_eq rfl rfl ⟨rfl, rfl⟩ ⟨rfl, rfl, rfl⟩ rfl
  · exact heff.keeps_inv h

/-- Settles O60: the state without the turn taken has the invariant, and each of the three turns keeps it. -/
theorem stepKeepsInvariant : Obligations.StepKeepsInvariant := by
  intro s t h hstep
  have hdrop : s.dropTurn.Inv := h.of_eq rfl rfl ⟨rfl, rfl⟩ ⟨rfl, rfl, rfl⟩ rfl
  rcases step_cases s with ⟨_, hturn⟩ | ⟨a, _, _, hturn⟩ | ⟨_, hturn⟩
  · exact sequencerTurn_keeps_inv hdrop (hturn.symm.trans hstep)
  · exact hostTurn_keeps_inv hdrop (hturn.symm.trans hstep)
  · cases hturn.symm.trans hstep
    exact State.resetBau_inv _ hdrop.config

/-! ### A pending command is locked (20_memory.md R65 to R68; 60_exceptions.md R225; 70_reset_and_hazards.md R261) -/

/-- A write at the offset of CTRL is a write to CTRL and to nothing else. -/
theorem eq_ctrl_offset {off : Nat} (h : mmioAt off = .ctrl) : off = 0x08 :=
  eq_offset_of_mmioAt h (by decide)

/-- Settles O54: of the effects that a write can have, acceptance and the ports need an idle machine, a pending command has no
status bits to clear, and the soft reset is a CTRL write of 2 or 3. -/
theorem pendingCommandLocksTheMachine : Obligations.PendingCommandLocksTheMachine := by
  intro s t p a h hp hturn
  rcases hostTurn_cases hturn with ⟨_, _, rfl⟩ | ⟨off, v, ha, heff⟩
  · exact .inr ⟨hp, rfl, rfl, rfl, rfl, rfl, rfl⟩
  · cases heff with
    | plain => exact .inr ⟨hp, rfl, rfl, rfl, rfl, rfl, rfl⟩
    | enable => exact .inr ⟨hp, rfl, rfl, rfl, rfl, rfl, rfl⟩
    | accept hidle => simp [hp] at hidle
    | clear =>
      obtain ⟨_, hdone, herr, _⟩ := h.busy p hp
      exact .inr ⟨hp, rfl, rfl, rfl, by simp [hdone], by simp [herr], rfl⟩
    | softReset hr hv =>
      rw [eq_ctrl_offset hr] at ha
      exact .inl ⟨v, hv, ha, rfl⟩
    | port hidle => simp [hp] at hidle

/-! ### The interrupt line (60_exceptions.md R232) -/

theorem State.irq_iff (s : State) : s.irq = true ↔ s.ie = true ∧ s.done = true := by
  simp [State.irq]

/-- Only the completion of a command raises IRQ in the sequencer's turn. -/
theorem sequencerTurn_raises_irq {s t : State} (h : sequencerTurn s = .next t) (hs : s.irq = false) (ht : t.irq = true) :
    s.pending ≠ Option.none ∧ t.pending = Option.none ∧ s.ie = true ∧ s.done = false := by
  cases hp : s.pending with
  | none =>
    cases (sequencerTurn_of_idle hp).symm.trans h
    simp [hs] at ht
  | some p =>
    have hframe := completeWord_frame ((sequencerTurn_of_pending hp).symm.trans h)
    rw [hframe] at ht
    have hie : s.ie = true := ((State.irq_iff _).mp ht).1
    refine ⟨nofun, (sequencerTurn_leaves_idle h).1, hie, ?_⟩
    simpa [State.irq, hie] using hs

/-- Only a CTRL write that sets IE while DONE is 1 raises IRQ in the host's turn. -/
theorem hostTurn_raises_irq {a : HostAccess} {s t : State} (h : hostTurn a s = .next t) (hs : s.irq = false)
    (ht : t.irq = true) :
    s.ie = false ∧ t.ie = true ∧ s.done = true ∧ ∃ data, a = .write (s.cfg.mmioBase + 0x08) data := by
  have same : ∀ u : State, u.ie = s.ie → u.done = s.done → u.irq ≠ true := fun u hie hdone => by
    rw [State.irq, hie, hdone, ← State.irq, hs]
    decide
  obtain ⟨hie, hdone⟩ := t.irq_iff.mp ht
  rcases hostTurn_cases h with ⟨_, _, rfl⟩ | ⟨off, v, ha, heff⟩
  · exact absurd ht (same _ rfl rfl)
  · cases heff with
    | plain => exact absurd ht (same _ rfl rfl)
    | enable hr b =>
      have hdone' : s.done = true := hdone
      rw [eq_ctrl_offset hr] at ha
      refine ⟨?_, hie, hdone', _, ha⟩
      simpa [State.irq, hdone'] using hs
    | accept => cases hdone
    | clear => exact absurd ht (same _ rfl (hdone.trans (Bool.and_elim_left hdone).symm))
    | softReset => cases hdone
    | port => exact absurd ht (same _ rfl rfl)

/-- Settles O58, turn by turn. -/
theorem irqRisesOnlyOnCompletionOrEnable : Obligations.IrqRisesOnlyOnCompletionOrEnable := by
  intro s t
  refine ⟨s.irq_iff, fun hstep hs ht => ?_⟩
  rcases step_cases s with ⟨_, hturn⟩ | ⟨a, rest, hagenda, hturn⟩ | ⟨_, hturn⟩
  · exact .inl (sequencerTurn_raises_irq (s := s.dropTurn) (hturn.symm.trans hstep) hs ht)
  · obtain ⟨hie, hie', hdone, data, rfl⟩ := hostTurn_raises_irq (hturn.symm.trans hstep) hs ht
    exact .inr ⟨hie, hie', hdone, data, rest, hagenda⟩
  · cases hturn.symm.trans hstep
    cases ht

end Sys2Proof.Machine
end

section
/-! Proofs about the accesses of the window (10_state.md R31; 20_memory.md R63, R71; 60_exceptions.md R225, R226;
70_reset_and_hazards.md R268): byte lanes, the CMD and STATUS writes, repeated accesses, and the writes that commute with a
completion. -/

namespace Sys2Proof.Machine

/-! ### Byte lanes (20_memory.md R63) -/

theorem toLanes_getD_toNat (v : Word) : ∀ k < 4, ((toLanes v).getD k 0).toNat = v.toNat / 2 ^ (8 * k) % 2 ^ 8 := by
  intro k hk
  interval_cases k
  · exact toNat_extractLsb'_eq_div_mod v 0 8
  · exact toNat_extractLsb'_eq_div_mod v 8 8
  · exact toNat_extractLsb'_eq_div_mod v 16 8
  · exact toNat_extractLsb'_eq_div_mod v 24 8

/-- Settles O43: each lane is a field of the word. -/
theorem byteLanesAreLittleEndian : Obligations.ByteLanesAreLittleEndian := by
  intro v
  exact ⟨toLanes_length v, ofLanes_toLanes v, toLanes_getD_toNat v⟩

/-! ### CMD and STATUS writes (60_exceptions.md R225; 10_state.md R31) -/

/-- Settles O46: the write is an issue to a busy machine. -/
theorem cmdWriteWhileBusySetsOverrun : Obligations.CmdWriteWhileBusySetsOverrun := by
  intro s w hp
  rw [hostWrite_cmd, State.issue, if_pos (s.busy_iff.mpr hp)]

/-- A status bit is cleared where the written word has a 1. -/
theorem and_not_getLsbD (b : Bool) (v : Word) (k : Nat) :
    (b && !v.getLsbD k) = if v.toNat / 2 ^ k % 2 = 1 then false else b := by
  rw [BitVec.getLsbD, Nat.testBit_eq_decide_div_mod_eq]
  split_ifs with h <;> simp [h]

/-- Settles O47, bit by bit. -/
theorem statusWriteClearsBits : Obligations.StatusWriteClearsBits := by
  intro s v
  rw [hostWrite_toLanes 0x04 v s rfl]
  change s.clearStatus v = _
  simp only [State.clearStatus, and_not_getLsbD, Nat.reducePow]

/-! ### Repeated reads (20_memory.md R71) -/

/-- A read does not depend on the answer of the last one. -/
theorem mmioRead_answer (r : MmioReg) (s : State) (d : List Byte) :
    (mmioRead r { s with readData := d }).1 = (mmioRead r s).1 := by
  cases r with
  | ldata =>
    simp only [mmioRead, readLdata, apply_ite Prod.fst]
    rfl
  | lmeta =>
    simp only [mmioRead, readLmeta, apply_ite Prod.fst]
    rfl
  | _ => rfl

theorem hostRead_of_not_refused {s : State} {off bytes : Nat} (h : ¬ RefusedRead s off bytes) :
    hostRead off bytes s = { s with readData := toLanes (mmioRead (mmioAt off) s).1 } := by
  obtain ⟨rfl, halign⟩ : bytes = 4 ∧ off % 4 = 0 := by
    have hdef : ¬ (bytes ≠ 4 ∨ off % 4 ≠ 0) := fun hdef => h (.inl hdef)
    omega
  rw [hostRead_word off s halign, mmioRead_state_of_not_refused s off h]

theorem hostRead_hostRead (s : State) (off bytes : Nat) (hoff : off < 64) :
    hostRead off bytes (hostRead off bytes s) = hostRead off bytes s := by
  by_cases href : RefusedRead s off bytes
  · have hrefused (u : State) := (refusedAccessesSetHosterr u off hoff).1 bytes
    rw [hrefused s href]
    exact hrefused { s with hostErr := true, readData := List.replicate bytes 0 } href
  · rw [hostRead_of_not_refused href]
    refine (hostRead_of_not_refused (s := { s with readData := toLanes (mmioRead (mmioAt off) s).1 }) href).trans ?_
    simp only [mmioRead_answer]

/-! ### Repeated writes (20_memory.md R71) -/

theorem State.setReg_setReg (s : State) (r : Reg) (b c : BigReg) : (s.setReg r b).setReg r c = s.setReg r c := by
  simp [State.setReg]

theorem writeLdata_writeLdata (v : Word) (s : State) : writeLdata v (writeLdata v s) = writeLdata v s := by
  by_cases href : s.pending ≠ Option.none ∨ s.cfg.lmax ≤ s.lidx.toNat ∨ radix ≤ v.toNat
  · rw [writeLdata_of_refusal v s href]
    exact writeLdata_of_refusal v s.refuse href
  · simp only [not_or, not_le, not_not] at href
    obtain ⟨hidle, hi, hv⟩ := href
    rw [writeLdata_of_accepted v s hidle hi hv, writeLdata_of_accepted v (s.setReg _ _) hidle hi hv]
    simp only [State.setReg_lreg, State.setReg_lidx, State.reg_setReg_same, State.setReg_setReg, List.set_set]

theorem writeLmeta_writeLmeta (v : Word) (s : State) : writeLmeta v (writeLmeta v s) = writeLmeta v s := by
  by_cases href : s.pending ≠ Option.none ∨ v.toNat / 2 ^ 16 % 2 ^ 15 ≠ 0 ∨ s.cfg.lmax < v.toNat % 2 ^ 16
  · rw [writeLmeta_of_refusal v s href]
    exact writeLmeta_of_refusal v s.refuse href
  · simp only [not_or, not_lt, not_not] at href
    obtain ⟨hidle, hres, hlen⟩ := href
    rw [writeLmeta_of_accepted v s hidle hres hlen, writeLmeta_of_accepted v (s.setReg _ _) hidle hres hlen]
    simp only [State.setReg_lreg, State.reg_setReg_same, State.setReg_setReg]

theorem writeLreg_writeLreg (v : Word) (s : State) : writeLreg v (writeLreg v s) = writeLreg v s := by
  unfold writeLreg
  split_ifs <;> rfl

theorem writeLidx_writeLidx (v : Word) (s : State) : writeLidx v (writeLidx v s) = writeLidx v s := by
  unfold writeLidx
  split_ifs <;> rfl

theorem mmioWrite_mmioWrite (r : MmioReg) (hr : r ∈ [MmioReg.immLo, .immHi, .lreg, .lidx, .ldata, .lmeta]) (v : Word)
    (s : State) : mmioWrite r v (mmioWrite r v s) = mmioWrite r v s := by
  fin_cases hr
  · rfl
  · rfl
  · exact writeLreg_writeLreg v s
  · exact writeLidx_writeLidx v s
  · exact writeLdata_writeLdata v s
  · exact writeLmeta_writeLmeta v s

/-- Settles O53: a read by its refusal, a repeated write by its register. -/
theorem readsAndRepeatedWritesAreHarmless : Obligations.ReadsAndRepeatedWritesAreHarmless := by
  intro s off hoff
  obtain ⟨hrefused, hkept, _⟩ := refusedAccessesSetHosterr s off hoff
  refine ⟨fun bytes => ⟨hostRead_frame off bytes s, fun href => ?_, hkept bytes, hostRead_hostRead s off bytes hoff⟩,
    fun v hlo hhi => ?_⟩
  · rw [hrefused bytes href]
  · by_cases halign : off % 4 = 0
    · have hreg : mmioAt off ∈ [MmioReg.immLo, .immHi, .lreg, .lidx, .ldata, .lmeta] := by
        obtain ⟨k, rfl⟩ := Nat.dvd_of_mod_eq_zero halign
        have hk : 4 ≤ k ∧ k ≤ 9 := by omega
        obtain ⟨hk4, hk9⟩ := hk
        interval_cases k <;> decide
      rw [hostWrite_toLanes off v _ halign, hostWrite_toLanes off v _ halign]
      exact mmioWrite_mmioWrite _ hreg v s
    · have hundef (u : State) := hostWrite_of_undefined off (toLanes v) u (.inr halign)
      rw [hundef, hundef]
      rfl

/-! ### Writes that commute with a completion (60_exceptions.md R226; 70_reset_and_hazards.md R268) -/

/-- The state with HOSTERR, IMM, LREG and LIDX replaced: what the writes to IMM_LO, IMM_HI, LREG and LIDX write. -/
def State.withWindow (s : State) (hostErr : Bool) (immLo immHi : Word) (lreg : Reg) (lidx : BitVec 16) : State :=
  { s with hostErr := hostErr, immLo := immLo, immHi := immHi, lreg := lreg, lidx := lidx }

section
variable (hostErr : Bool) (immLo immHi : Word) (lreg : Reg) (lidx : BitVec 16)

theorem State.compute_withWindow (s : State) (srcs : List Reg) (rd : Reg) (o : Except ErrCode Int) :
    (s.withWindow hostErr immLo immHi lreg lidx).compute srcs rd o
      = (s.compute srcs rd o).withWindow hostErr immLo immHi lreg lidx := by
  by_cases hwf : ∀ r ∈ srcs, s.Wf r
  · match o with
    | .error c =>
      rw [s.compute_of_error srcs rd c hwf]
      exact State.compute_of_error (s.withWindow ..) srcs rd c hwf
    | .ok v =>
      by_cases hv : nlen v ≤ s.cfg.lmax
      · rw [s.compute_of_fits srcs rd v hwf hv]
        exact State.compute_of_fits (s.withWindow ..) srcs rd v hwf hv
      · rw [s.compute_of_overflow srcs rd v hwf (not_le.mp hv)]
        exact State.compute_of_overflow (s.withWindow ..) srcs rd v hwf (not_le.mp hv)
  · rw [s.compute_of_badSource srcs rd o hwf]
    exact State.compute_of_badSource (s.withWindow ..) srcs rd o hwf

/-- A completion neither reads nor writes IMM, LREG, LIDX and HOSTERR: it uses the captured immediate. -/
theorem exec_withWindow (i : Instr) {s t : State} {p : Pending} (hp : s.pending = some p) (h : exec i s = .next t) :
    exec i (s.withWindow hostErr immLo immHi lreg lidx) = .next (t.withWindow hostErr immLo immHi lreg lidx) := by
  have ofCompute : ∀ (srcs : List Reg) (rd : Reg) (o : Except ErrCode Int), exec i s = .next (s.compute srcs rd o) →
      .next ((s.withWindow hostErr immLo immHi lreg lidx).compute srcs rd o)
        = (.next (t.withWindow hostErr immLo immHi lreg lidx) : Host.Outcome State Fault Refusal) := by
    intro srcs rd o hx
    cases hx.symm.trans h
    rw [State.compute_withWindow]
  cases i with
  | add rd ra rb => exact ofCompute _ _ _ rfl
  | sub rd ra rb => exact ofCompute _ _ _ rfl
  | mul rd ra rb => exact ofCompute _ _ _ rfl
  | div rd ra rb => exact ofCompute _ _ _ rfl
  | mod rd ra rb => exact ofCompute _ _ _ rfl
  | pow rd ra rb rc => exact ofCompute _ _ _ rfl
  | cmp ra rb =>
    by_cases hwf : s.Wf ra ∧ s.Wf rb
    · cases (exec_cmp_of_wf hwf.1 hwf.2).symm.trans h
      exact exec_cmp_of_wf (s := s.withWindow ..) hwf.1 hwf.2
    · cases (exec_cmp_of_badSource hwf).symm.trans h
      exact exec_cmp_of_badSource (s := s.withWindow ..) hwf
  | seti rd =>
    cases (exec_seti_of_pending rd hp).symm.trans h
    exact exec_seti_of_pending (s := s.withWindow ..) rd hp

theorem sequencerTurn_withWindow {s t : State} {p : Pending} (hp : s.pending = some p) (h : sequencerTurn s = .next t) :
    sequencerTurn (s.withWindow hostErr immLo immHi lreg lidx) = .next (t.withWindow hostErr immLo immHi lreg lidx) := by
  have hp' : (s.withWindow hostErr immLo immHi lreg lidx).pending = some p := hp
  rw [sequencerTurn_of_pending hp] at h
  rw [sequencerTurn_of_pending hp']
  rcases completeWord_cases p.word s with ⟨e, hd, hw⟩ | ⟨i, hd, hw⟩
  · cases hw.symm.trans h
    exact completeWord_of_decode_error _ hd
  · rw [completeWord_of_decode_ok _ hd]
    exact exec_withWindow hostErr immLo immHi lreg lidx i hp (hw.symm.trans h)

end

/-- A write to IMM_LO, IMM_HI, LREG or LIDX replaces fields of the window, by the same values in every state with the same
window. -/
theorem mmioWrite_eq_withWindow (r : MmioReg) (hr : r ∈ [MmioReg.immLo, .immHi, .lreg, .lidx]) (v : Word) (s : State) :
    ∃ hostErr immLo immHi lreg lidx, ∀ t : State,
      mmioWrite r v (t.withWindow s.hostErr s.immLo s.immHi s.lreg s.lidx) = t.withWindow hostErr immLo immHi lreg lidx := by
  fin_cases hr
  · exact ⟨s.hostErr, v, s.immHi, s.lreg, s.lidx, fun _ => rfl⟩
  · exact ⟨s.hostErr, s.immLo, v, s.lreg, s.lidx, fun _ => rfl⟩
  · by_cases h : v.extractLsb' 4 28 ≠ 0
    · exact ⟨true, s.immLo, s.immHi, s.lreg, s.lidx, fun _ => if_pos h⟩
    · exact ⟨s.hostErr, s.immLo, s.immHi, (v.extractLsb' 0 4).toFin, s.lidx, fun _ => if_neg h⟩
  · by_cases h : v.extractLsb' 16 16 ≠ 0
    · exact ⟨true, s.immLo, s.immHi, s.lreg, s.lidx, fun _ => if_pos h⟩
    · exact ⟨s.hostErr, s.immLo, s.immHi, s.lreg, v.extractLsb' 0 16, fun _ => if_neg h⟩

theorem completeWord_keeps_window {w : Word} {s t : State} (h : completeWord w s = .next t) :
    t = t.withWindow s.hostErr s.immLo s.immHi s.lreg s.lidx := by
  rw [completeWord_frame h]
  rfl

/-- Settles O55: a completion neither reads nor writes the fields that these writes replace. -/
theorem hostWritesCommuteWithCompletion : Obligations.HostWritesCommuteWithCompletion := by
  intro s t p off v hp hoff h
  have hreg : off % 4 = 0 ∧ mmioAt off ∈ [MmioReg.immLo, .immHi, .lreg, .lidx] := by
    rcases hoff with rfl | rfl | rfl | rfl <;> decide
  obtain ⟨halign, hmem⟩ := hreg
  obtain ⟨hostErr, immLo, immHi, lreg, lidx, hwrite⟩ := mmioWrite_eq_withWindow (mmioAt off) hmem v s
  have hs : mmioWrite (mmioAt off) v s = s.withWindow hostErr immLo immHi lreg lidx := hwrite s
  have ht : mmioWrite (mmioAt off) v t = t.withWindow hostErr immLo immHi lreg lidx := by
    rw [← hwrite t, ← completeWord_keeps_window ((sequencerTurn_of_pending hp).symm.trans h)]
  rw [hostWrite_toLanes off v s halign, hostWrite_toLanes off v t halign, hs, ht]
  exact sequencerTurn_withWindow hostErr immLo immHi lreg lidx hp h

end Sys2Proof.Machine
end

section
/-! Proofs about values (10_state.md R22 to R24): digit counts, encodings, normalised limb sequences as the digits of their numbers, and
the value of a well-formed register. -/

namespace Sys2Proof.Machine

/-! ### Digit counts and encodings (10_state.md R24) -/

/-- Settles O25: nlen v is the least k with |v| < R^k. -/
theorem nlenCountsDigits : Obligations.NlenCountsDigits := by
  refine ⟨(nlen_eq_zero_iff 0).mpr rfl, fun v hv => ?_⟩
  have hpos : 1 ≤ nlen v := Nat.one_le_iff_ne_zero.mpr (mt (nlen_eq_zero_iff v).mp hv)
  exact ⟨hpos, (lt_nlen_iff v _).mp (Nat.sub_one_lt_of_lt hpos), natAbs_lt_pow_nlen v⟩

/-- Settles O27, by `enc_holdsExactly`. -/
theorem encodingHoldsExactly : Obligations.EncodingHoldsExactly := by
  intro lmax v hl h
  exact ⟨enc_holdsExactly lmax v (by omega) h, enc_len_toNat lmax v (by omega)⟩

/-! ### Normalised limb sequences (10_state.md R23) -/

theorem magOf_eq_ofDigits (xs : List Nat) : magOf xs = Nat.ofDigits radix xs := by
  induction xs with
  | nil => rfl
  | cons x xs ih => rw [magOf_cons, ih, Nat.ofDigits_cons]

theorem NormalLimbs.getLast_ne_zero {xs : List Nat} (h : NormalLimbs xs) (hne : xs ≠ []) : xs.getLast hne ≠ 0 :=
  fun hlast => h.2 (by rw [List.getLast?_eq_some_getLast hne, hlast])

/-- A normalised limb sequence is the digits of its number. -/
theorem NormalLimbs.digits_magOf {xs : List Nat} (h : NormalLimbs xs) : Nat.digits radix (magOf xs) = xs := by
  rw [magOf_eq_ofDigits]
  exact Nat.digits_ofDigits radix one_lt_radix xs h.1 h.getLast_ne_zero

theorem NormalLimbs.eq_of_magOf_eq {xs ys : List Nat} (hx : NormalLimbs xs) (hy : NormalLimbs ys)
    (h : magOf xs = magOf ys) : xs = ys := by
  rw [← hx.digits_magOf, h, hy.digits_magOf]

/-- A normalised limb sequence makes a number of as many digits. -/
theorem NormalLimbs.pow_le_magOf {xs : List Nat} (h : NormalLimbs xs) (hne : xs ≠ []) :
    radix ^ (xs.length - 1) ≤ magOf xs := by
  have hle := Sys2Proof.Machine.pow_le_magOf xs.dropLast (xs.getLast hne) (h.getLast_ne_zero hne)
  rwa [List.dropLast_append_getLast, List.length_dropLast] at hle

theorem NormalLimbs.eq_nil_iff {xs : List Nat} (h : NormalLimbs xs) : xs = [] ↔ magOf xs = 0 := by
  refine ⟨fun hnil => by rw [hnil, magOf_nil], fun hzero => ?_⟩
  exact h.eq_of_magOf_eq ⟨nofun, nofun⟩ hzero

/-- The longer of two normalised limb sequences makes the greater number. -/
theorem NormalLimbs.magOf_lt_of_length_lt {xs ys : List Nat} (hx : NormalLimbs xs) (hy : NormalLimbs ys)
    (h : xs.length < ys.length) : magOf xs < magOf ys :=
  calc magOf xs < radix ^ xs.length := magOf_lt_pow xs hx.1
    _ ≤ radix ^ (ys.length - 1) := Nat.pow_le_pow_right radix_pos (Nat.le_sub_one_of_lt h)
    _ ≤ magOf ys := hy.pow_le_magOf (List.ne_nil_of_length_pos (Nat.zero_lt_of_lt h))

/-! ### Well-formed registers (10_state.md R23) -/

theorem BigReg.wf_iff (lmax : Nat) (b : BigReg) :
    b.wf lmax = true ↔ b.len.toNat ≤ lmax ∧ (∀ l ∈ b.limbs, l < radix)
      ∧ (b.len.toNat = 0 ∨ b.cell (b.len.toNat - 1) ≠ 0) ∧ (b.len.toNat ≠ 0 ∨ b.sign = .positive) := by
  simp only [BigReg.wf, Bool.and_eq_true, Bool.or_eq_true, decide_eq_true_eq, List.all_eq_true, and_assoc]

/-- The limbs of a register are its cells below len. -/
theorem BigReg.getD_limbs (b : BigReg) (i : Nat) (h : i < b.len.toNat) : b.limbs.getD i 0 = (b.cell i).toNat := by
  rw [BigReg.limbs, BigReg.cell, List.getD_eq_getElem?_getD, List.getD_eq_getElem?_getD, List.getElem?_map,
    List.getElem?_take_of_lt h]
  cases b.limb[i]? <;> rfl

/-- A well-formed register has len limbs: its top limb is not 0, so it is not beyond the list of cells. -/
theorem BigReg.length_limbs_of_wf {lmax : Nat} {b : BigReg} (h : b.wf lmax = true) : b.limbs.length = b.len.toNat := by
  obtain ⟨_, _, htop, _⟩ := (b.wf_iff lmax).mp h
  rcases htop with hzero | htop
  · simp [BigReg.limbs, hzero]
  · have hlt : b.len.toNat - 1 < b.limb.length := by
      by_contra hge
      exact htop (List.getD_eq_default _ _ (not_lt.mp hge))
    simp only [BigReg.limbs, List.length_map, List.length_take]
    omega

theorem BigReg.normalLimbs_of_wf {lmax : Nat} {b : BigReg} (h : b.wf lmax = true) : NormalLimbs b.limbs := by
  obtain ⟨_, hlimbs, htop, _⟩ := (b.wf_iff lmax).mp h
  refine ⟨hlimbs, fun hlast => ?_⟩
  have hlen := BigReg.length_limbs_of_wf h
  rw [List.getLast?_eq_getElem?, hlen] at hlast
  have hlt : b.len.toNat - 1 < b.limbs.length := (List.getElem?_eq_some_iff.mp hlast).1
  have hcell := b.getD_limbs (b.len.toNat - 1) (hlen ▸ hlt)
  rw [List.getD_eq_getElem?_getD, hlast] at hcell
  exact htop.elim (by omega) fun hne => hne (BitVec.eq_of_toNat_eq hcell.symm)

/-- A well-formed register is POSITIVE if its value is not negative, and the other way round. -/
theorem BigReg.sign_of_wf {lmax : Nat} {b : BigReg} (h : b.wf lmax = true) : b.sign = .positive ↔ 0 ≤ b.val := by
  obtain ⟨_, _, _, hsign⟩ := (b.wf_iff lmax).mp h
  cases hs : b.sign with
  | positive => simp [BigReg.val, hs, Sign.factor]
  | negative =>
    have hne : b.limbs ≠ [] := by
      rw [ne_eq, ← List.length_eq_zero_iff, BigReg.length_limbs_of_wf h]
      exact hsign.resolve_right (by simp [hs])
    have hpos : b.mag ≠ 0 := mt (BigReg.normalLimbs_of_wf h).eq_nil_iff.mpr hne
    simp only [BigReg.val, hs, Sign.factor]
    constructor
    · nofun
    · omega

theorem Sign.eq_of_positive_iff {g h : Sign} (hiff : g = .positive ↔ h = .positive) : g = h := by
  cases g <;> cases h <;> simp at hiff ⊢

/-- Settles O28: the value gives the magnitude, whose digits the limbs are, and the sign. -/
theorem wfValueDeterminesRegister : Obligations.WfValueDeterminesRegister := by
  intro lmax b c hb hc hval
  have hmag : b.mag = c.mag := by rw [← b.natAbs_val, hval, c.natAbs_val]
  have hlimbs : b.limbs = c.limbs := (BigReg.normalLimbs_of_wf hb).eq_of_magOf_eq (BigReg.normalLimbs_of_wf hc) hmag
  have hlen : b.len = c.len := by
    apply BitVec.eq_of_toNat_eq
    rw [← BigReg.length_limbs_of_wf hb, hlimbs, BigReg.length_limbs_of_wf hc]
  refine ⟨Sign.eq_of_positive_iff ?_, hlen, fun i hi => BitVec.eq_of_toNat_eq ?_⟩
  · rw [BigReg.sign_of_wf hb, BigReg.sign_of_wf hc, hval]
  · rw [← b.getD_limbs i hi, ← c.getD_limbs i (hlen ▸ hi), hlimbs]

end Sys2Proof.Machine
end

section
/-! Proofs about the limb units of addition and comparison (40_addsub.md R111, R114 to R117; 44_compare_construct.md R201). -/

namespace Sys2Proof.Machine

/-! ### The comparators (40_addsub.md R114; 44_compare_construct.md R201) -/

theorem sign_sub_of_lt {m n : Nat} (h : m < n) : Int.sign ((m : Int) - n) = -1 :=
  Int.sign_eq_neg_one_of_neg (by omega)

theorem sign_sub_of_gt {m n : Nat} (h : n < m) : Int.sign ((m : Int) - n) = 1 :=
  Int.sign_eq_one_of_pos (by omega)

/-- Above limbs below R, one more limb at the top decides the order. -/
theorem magOf_append_lt {xs ys : List Nat} {x y : Nat} (hlen : xs.length = ys.length) (hx : ∀ l ∈ xs, l < radix)
    (h : x < y) : magOf (xs ++ [x]) < magOf (ys ++ [y]) := by
  have hlt := magOf_lt_pow xs hx
  simp only [magOf_append, magOf_cons, magOf_nil, mul_zero, add_zero, ← hlen]
  calc magOf xs + radix ^ xs.length * x < radix ^ xs.length * (x + 1) := by rw [Nat.mul_succ]; omega
    _ ≤ radix ^ xs.length * y := Nat.mul_le_mul_left _ h
    _ ≤ magOf ys + radix ^ xs.length * y := Nat.le_add_left _ _

/-- The comparison from the top, limb by limb, of sequences of one length. -/
theorem cmpFromTop_eq_sign (us vs : List Nat) (hlen : us.length = vs.length) (hu : ∀ l ∈ us, l < radix)
    (hv : ∀ l ∈ vs, l < radix) :
    cmpFromTop us vs = Int.sign ((magOf us.reverse : Int) - (magOf vs.reverse : Int)) := by
  induction us generalizing vs with
  | nil =>
    obtain rfl := List.length_eq_zero_iff.mp hlen.symm
    rfl
  | cons u us ih =>
    obtain ⟨v, vs, rfl⟩ := List.exists_cons_of_length_eq_add_one hlen.symm
    rw [List.length_cons, List.length_cons, Nat.add_right_cancel_iff] at hlen
    have hu' : ∀ l ∈ us, l < radix := fun l hl => hu l (List.mem_cons_of_mem u hl)
    have hv' : ∀ l ∈ vs, l < radix := fun l hl => hv l (List.mem_cons_of_mem v hl)
    have hrev : us.reverse.length = vs.reverse.length := by rw [List.length_reverse, List.length_reverse, hlen]
    rw [List.reverse_cons, List.reverse_cons, cmpFromTop]
    split_ifs with heq hlt
    · rw [ih vs hlen hu' hv', heq, magOf_append, magOf_append, hrev]
      push_cast
      rw [add_sub_add_right_eq_sub]
    · rw [sign_sub_of_gt (magOf_append_lt hrev.symm (by simpa using hv') hlt)]
    · rw [sign_sub_of_lt (magOf_append_lt hrev (by simpa using hu') (by omega))]

theorem magCmp_eq_sign {xs ys : List Nat} (hx : NormalLimbs xs) (hy : NormalLimbs ys) :
    magCmp xs ys = Int.sign ((magOf xs : Int) - (magOf ys : Int)) := by
  unfold magCmp
  split_ifs with hlen hlt
  · rw [sign_sub_of_gt (hy.magOf_lt_of_length_lt hx hlt)]
  · rw [sign_sub_of_lt (hx.magOf_lt_of_length_lt hy (by omega))]
  · rw [cmpFromTop_eq_sign _ _ (by simpa using hlen) (by simpa using hx.1) (by simpa using hy.1), List.reverse_reverse,
      List.reverse_reverse]

/-- Settles O29: the longer sequence makes the greater number; sequences of one length are compared from the top. -/
theorem comparatorIsSign : Obligations.ComparatorIsSign :=
  fun _ _ => magCmp_eq_sign

/-- Settles O42: unlike signs decide, since a well-formed register is NEGATIVE only below 0; like signs leave the magnitudes. -/
theorem signedComparatorIsSign : Obligations.SignedComparatorIsSign := by
  intro lmax b c hb hc
  have hmag : magCmp b.limbs c.limbs = Int.sign ((b.mag : Int) - c.mag) :=
    magCmp_eq_sign (BigReg.normalLimbs_of_wf hb) (BigReg.normalLimbs_of_wf hc)
  have hbSign := BigReg.sign_of_wf hb
  have hcSign := BigReg.sign_of_wf hc
  have hbVal : b.val = b.sign.factor * b.mag := rfl
  have hcVal : c.val = c.sign.factor * c.mag := rfl
  generalize b.sign = sb at *
  generalize c.sign = sc at *
  cases sb with
  | positive =>
    cases sc with
    | positive =>
      rw [hbVal, hcVal, Sign.factor, one_mul, one_mul]
      exact hmag
    | negative =>
      simp only [true_iff, reduceCtorEq, false_iff] at hbSign hcSign
      exact (Int.sign_eq_one_of_pos (by omega)).symm
  | negative =>
    cases sc with
    | positive =>
      simp only [true_iff, reduceCtorEq, false_iff] at hbSign hcSign
      exact (Int.sign_eq_neg_one_of_neg (by omega)).symm
    | negative =>
      rw [hbVal, hcVal, Sign.factor, ← mul_sub, neg_one_mul, Int.sign_neg, ← hmag]
      rfl

/-! ### The carry and borrow chains (40_addsub.md R115, R116) -/

/-- Padding with zero limbs at the most-significant end keeps the number. -/
theorem magOf_padded (xs : List Nat) (n : Nat) (h : xs.length ≤ n) :
    magOf ((List.range n).map fun i => xs.getD i 0) = magOf xs := by
  induction xs generalizing n with
  | nil =>
    induction n with
    | zero => rfl
    | succ n ih =>
      rw [List.range_succ, List.map_append, magOf_append, ih (Nat.zero_le n)]
      simp [magOf_cons]
  | cons x xs ih =>
    obtain ⟨n, rfl⟩ := Nat.exists_eq_add_of_le' (Nat.one_le_of_lt h)
    rw [List.range_succ_eq_map, List.map_cons, List.map_map, magOf_cons, magOf_cons]
    congr 2
    exact ih n (Nat.le_of_succ_le_succ h)

theorem magOf_fst_padPairs (xs ys : List Nat) : magOf ((padPairs xs ys).map Prod.fst) = magOf xs := by
  rw [padPairs, List.map_map]
  exact magOf_padded xs _ (le_max_left _ _)

theorem magOf_snd_padPairs (xs ys : List Nat) : magOf ((padPairs xs ys).map Prod.snd) = magOf ys := by
  rw [padPairs, List.map_map]
  exact magOf_padded ys _ (le_max_right _ _)

theorem getD_lt_radix {xs : List Nat} (h : ∀ l ∈ xs, l < radix) (i : Nat) : xs.getD i 0 < radix := by
  by_cases hi : i < xs.length
  · rw [List.getD_eq_getElem _ _ hi]
    exact h _ (List.getElem_mem hi)
  · rw [List.getD_eq_default _ _ (not_lt.mp hi)]
    exact radix_pos

theorem padPairs_lt_radix {xs ys : List Nat} (hx : ∀ l ∈ xs, l < radix) (hy : ∀ l ∈ ys, l < radix) :
    ∀ p ∈ padPairs xs ys, p.1 < radix ∧ p.2 < radix := by
  intro p hp
  obtain ⟨i, _, rfl⟩ := List.mem_map.mp hp
  exact ⟨getD_lt_radix hx i, getD_lt_radix hy i⟩

theorem magOf_addChain (ps : List (Nat × Nat)) (c : Nat) (hc : c ≤ 1) (hps : ∀ p ∈ ps, p.1 < radix ∧ p.2 < radix) :
    magOf (addChain c ps) = magOf (ps.map Prod.fst) + magOf (ps.map Prod.snd) + c := by
  induction ps generalizing c with
  | nil =>
    interval_cases c <;> rfl
  | cons p ps ih =>
    obtain ⟨x, y⟩ := p
    obtain ⟨hx, hy⟩ := hps (x, y) List.mem_cons_self
    have hcarry : (x + y + c) / radix ≤ 1 := by
      rw [← Nat.lt_succ_iff, Nat.div_lt_iff_lt_mul radix_pos]
      omega
    rw [addChain, magOf_cons, ih _ hcarry fun p hp => hps p (List.mem_cons_of_mem _ hp), List.map_cons, List.map_cons,
      magOf_cons, magOf_cons]
    linarith [Nat.mod_add_div (x + y + c) radix]

theorem addChain_lt_radix (ps : List (Nat × Nat)) (c : Nat) : ∀ l ∈ addChain c ps, l < radix := by
  induction ps generalizing c with
  | nil =>
    intro l hl
    rw [addChain] at hl
    split_ifs at hl
    · rw [List.mem_singleton.mp hl]
      exact one_lt_radix
    · cases hl
  | cons p ps ih =>
    obtain ⟨x, y⟩ := p
    intro l hl
    rcases List.mem_cons.mp hl with rfl | hl
    · exact Nat.mod_lt _ radix_pos
    · exact ih _ l hl

/-- The borrow chain subtracts exactly where nothing is borrowed at the end. -/
theorem magOf_subChain (ps : List (Nat × Nat)) (br : Nat) (hbr : br ≤ 1) (hps : ∀ p ∈ ps, p.1 < radix ∧ p.2 < radix)
    (hle : magOf (ps.map Prod.snd) + br ≤ magOf (ps.map Prod.fst)) :
    magOf (subChain br ps) + (magOf (ps.map Prod.snd) + br) = magOf (ps.map Prod.fst) := by
  induction ps generalizing br with
  | nil => exact Nat.le_antisymm (by simpa [subChain] using hle) (Nat.zero_le _)
  | cons p ps ih =>
    obtain ⟨x, y⟩ := p
    obtain ⟨hx, hy⟩ := hps (x, y) List.mem_cons_self
    have hps' : ∀ p ∈ ps, p.1 < radix ∧ p.2 < radix := fun p hp => hps p (List.mem_cons_of_mem _ hp)
    rw [List.map_cons, List.map_cons, magOf_cons, magOf_cons] at hle ⊢
    rw [subChain]
    split_ifs with hborrow
    · have hle' : magOf (ps.map Prod.snd) + 1 ≤ magOf (ps.map Prod.fst) :=
        Nat.lt_of_mul_lt_mul_left (a := radix) (by omega)
      have hrest := congrArg (radix * ·) (ih 1 le_rfl hps' hle')
      simp only [mul_add, mul_one] at hrest
      rw [magOf_cons]
      omega
    · have hle' : magOf (ps.map Prod.snd) + 0 ≤ magOf (ps.map Prod.fst) := by
        refine Nat.le_of_lt_succ (Nat.lt_of_mul_lt_mul_left (a := radix) ?_)
        rw [Nat.mul_succ, add_zero]
        omega
      have hrest := congrArg (radix * ·) (ih 0 zero_le_one hps' hle')
      simp only [mul_add, mul_zero] at hrest
      rw [magOf_cons]
      omega

theorem subChain_lt_radix (ps : List (Nat × Nat)) (br : Nat) (hps : ∀ p ∈ ps, p.1 < radix ∧ p.2 < radix) :
    ∀ l ∈ subChain br ps, l < radix := by
  induction ps generalizing br with
  | nil => nofun
  | cons p ps ih =>
    obtain ⟨x, y⟩ := p
    obtain ⟨hx, _⟩ := hps (x, y) List.mem_cons_self
    have hps' : ∀ p ∈ ps, p.1 < radix ∧ p.2 < radix := fun p hp => hps p (List.mem_cons_of_mem _ hp)
    intro l hl
    rw [subChain] at hl
    split_ifs at hl with hborrow <;> rcases List.mem_cons.mp hl with rfl | hl
    · omega
    · exact ih 1 hps' l hl
    · omega
    · exact ih 0 hps' l hl

theorem magOf_magAdd {xs ys : List Nat} (hx : ∀ l ∈ xs, l < radix) (hy : ∀ l ∈ ys, l < radix) :
    magOf (magAdd xs ys) = magOf xs + magOf ys := by
  rw [magAdd, magOf_addChain _ 0 (Nat.zero_le 1) (padPairs_lt_radix hx hy), magOf_fst_padPairs, magOf_snd_padPairs,
    add_zero]

theorem magOf_magSub {xs ys : List Nat} (hx : ∀ l ∈ xs, l < radix) (hy : ∀ l ∈ ys, l < radix)
    (hle : magOf ys ≤ magOf xs) : magOf (magSub xs ys) = magOf xs - magOf ys := by
  have hsub := magOf_subChain (padPairs xs ys) 0 zero_le_one (padPairs_lt_radix hx hy)
    (by rwa [magOf_fst_padPairs, magOf_snd_padPairs, add_zero])
  rw [magOf_fst_padPairs, magOf_snd_padPairs, add_zero] at hsub
  exact Nat.eq_sub_of_add_eq hsub

theorem magAdd_lt_radix (xs ys : List Nat) : ∀ l ∈ magAdd xs ys, l < radix :=
  addChain_lt_radix _ 0

theorem magSub_lt_radix {xs ys : List Nat} (hx : ∀ l ∈ xs, l < radix) (hy : ∀ l ∈ ys, l < radix) :
    ∀ l ∈ magSub xs ys, l < radix :=
  subChain_lt_radix _ 0 (padPairs_lt_radix hx hy)

/-- Settles O30: both chains keep the numbers that the pairs of limbs make, carry and borrow included. -/
theorem rippleChainsAreExact : Obligations.RippleChainsAreExact := by
  intro xs ys hx hy
  exact ⟨⟨magOf_magAdd hx hy, magAdd_lt_radix xs ys⟩, fun hle => ⟨magOf_magSub hx hy hle, magSub_lt_radix hx hy⟩⟩

/-! ### Normalisation (00_scope.md R17) -/

theorem stripZeros_eq_rdropWhile (xs : List Nat) : stripZeros xs = xs.rdropWhile (· == 0) := rfl

/-- Zero limbs at the most-significant end do not count. -/
theorem magOf_stripZeros (xs : List Nat) : magOf (stripZeros xs) = magOf xs := by
  rw [stripZeros_eq_rdropWhile]
  induction xs using List.reverseRecOn with
  | nil => rfl
  | append_singleton xs x ih =>
    rw [List.rdropWhile_concat]
    split_ifs with hx
    · rw [ih, magOf_append, beq_iff_eq.mp hx]
      simp [magOf_cons]
    · rfl

theorem normalLimbs_stripZeros {xs : List Nat} (h : ∀ l ∈ xs, l < radix) : NormalLimbs (stripZeros xs) := by
  rw [stripZeros_eq_rdropWhile]
  refine ⟨fun l hl => h l ((List.rdropWhile_prefix _ _).subset hl), fun hlast => ?_⟩
  have hne : xs.rdropWhile (· == 0) ≠ [] := fun hnil => by simp [hnil] at hlast
  rw [List.getLast?_eq_some_getLast hne, Option.some_inj] at hlast
  exact List.rdropWhile_last_not _ _ hne (beq_iff_eq.mpr hlast)

/-- Normalised limbs below R: the number with the given sign, normalised, with zero POSITIVE. -/
theorem normalise_spec (g : Sign) {xs : List Nat} (h : ∀ l ∈ xs, l < radix) :
    signedVal (normalise g xs) = g.factor * (magOf xs : Int) ∧ NormalLimbs (normalise g xs).2
      ∧ ((normalise g xs).2 = [] → (normalise g xs).1 = .positive) := by
  refine ⟨?_, normalLimbs_stripZeros h, fun hnil => if_pos hnil⟩
  rw [← magOf_stripZeros xs]
  simp only [signedVal, normalise]
  split_ifs with hnil
  · simp [hnil]
  · rfl

/-! ### The signed addition core (40_addsub.md R111) -/

/-- Settles O31: like signs add the magnitudes, unlike signs subtract the smaller from the greater. -/
theorem signedAdditionIsExact : Obligations.SignedAdditionIsExact := by
  intro sx sy xs ys hx hy
  have hflip : sx ≠ sy → sy.factor = -sx.factor := by cases sx <;> cases sy <;> simp [Sign.factor]
  rw [sadd, magCmp_eq_sign hx hy]
  simp only [Int.sign_nonneg_iff]
  split_ifs with heq hle
  · obtain ⟨hval, hnormal⟩ := normalise_spec sx (magAdd_lt_radix xs ys)
    refine ⟨?_, hnormal⟩
    rw [hval, magOf_magAdd hx.1 hy.1, ← heq]
    simp only [signedVal]
    push_cast
    ring
  · have hle' : magOf ys ≤ magOf xs := by omega
    obtain ⟨hval, hnormal⟩ := normalise_spec sx (magSub_lt_radix hx.1 hy.1)
    refine ⟨?_, hnormal⟩
    rw [hval, magOf_magSub hx.1 hy.1 hle']
    simp only [signedVal, hflip heq]
    push_cast [hle']
    ring
  · have hle' : magOf xs ≤ magOf ys := by omega
    obtain ⟨hval, hnormal⟩ := normalise_spec sy (magSub_lt_radix hy.1 hx.1)
    refine ⟨?_, hnormal⟩
    rw [hval, magOf_magSub hy.1 hx.1 hle']
    simp only [signedVal, hflip heq]
    push_cast [hle']
    ring

/-! ### The lengths of results (40_addsub.md R117; 41_multiply.md R146) -/

/-- A value of a magnitude at most the sum of two has at most one digit more than the longer of them. -/
theorem nlen_le_of_natAbs_le_add {v x y : Int} (h : v.natAbs ≤ x.natAbs + y.natAbs) :
    nlen v ≤ max (nlen x) (nlen y) + 1 := by
  have hx := (nlen_le_iff x _).mp (le_max_left (nlen x) (nlen y))
  have hy := (nlen_le_iff y _).mp (le_max_right (nlen x) (nlen y))
  have htwo : 2 ≤ radix := one_lt_radix
  rw [nlen_le_iff, pow_succ]
  nlinarith [Nat.mul_le_mul_left (radix ^ max (nlen x) (nlen y)) htwo]

/-- A value of a magnitude at most that of one of two has no more digits than the longer of them. -/
theorem nlen_le_of_natAbs_le_max {v x y : Int} (h : v.natAbs ≤ max x.natAbs y.natAbs) :
    nlen v ≤ max (nlen x) (nlen y) := by
  rcases le_max_iff.mp h with h | h
  · exact (nlen_mono h).trans (le_max_left _ _)
  · exact (nlen_mono h).trans (le_max_right _ _)

/-- Magnitudes of unlike sign do not add up. -/
theorem natAbs_add_le_max_of_mul_nonpos {x y : Int} (h : x * y ≤ 0) : (x + y).natAbs ≤ max x.natAbs y.natAbs := by
  rcases mul_nonpos_iff.mp h with ⟨hx, hy⟩ | ⟨hx, hy⟩ <;> omega

theorem nlen_mul_le (x y : Int) : nlen (x * y) ≤ nlen x + nlen y := by
  rw [nlen_le_iff, Int.natAbs_mul, pow_add]
  exact Nat.mul_lt_mul'' (natAbs_lt_pow_nlen x) (natAbs_lt_pow_nlen y)

theorem le_nlen_mul {x y : Int} (hx : x ≠ 0) (hy : y ≠ 0) : nlen x + nlen y - 1 ≤ nlen (x * y) := by
  obtain ⟨hxpos, hxlow, _⟩ := nlenCountsDigits.2 x hx
  obtain ⟨hypos, hylow, _⟩ := nlenCountsDigits.2 y hy
  have hlow : radix ^ (nlen x - 1 + (nlen y - 1)) ≤ (x * y).natAbs := by
    rw [Int.natAbs_mul, pow_add]
    exact Nat.mul_le_mul hxlow hylow
  have hlt := (lt_nlen_iff (x * y) _).mpr hlow
  omega

/-- Settles O32, by the magnitudes of sum, difference and product. -/
theorem resultLengths : Obligations.ResultLengths := by
  intro x y
  refine ⟨nlen_le_of_natAbs_le_add (Int.natAbs_add_le x y), nlen_le_of_natAbs_le_add (Int.natAbs_sub_le x y),
    fun h => nlen_le_of_natAbs_le_max (natAbs_add_le_max_of_mul_nonpos h), fun h => ?_,
    fun hx hy => ⟨le_nlen_mul hx hy, nlen_mul_le x y⟩⟩
  have hneg : nlen (-y) = nlen y := nlen_congr (Int.natAbs_neg y)
  rw [sub_eq_add_neg, ← hneg]
  exact nlen_le_of_natAbs_le_max (natAbs_add_le_max_of_mul_nonpos (by simpa using h))

end Sys2Proof.Machine
end

section
/-! Proofs about the multiply pipeline's stages after the transform (41_multiply.md R131, R137 to R140). -/

namespace Sys2Proof.Machine

/-! ### Rounding (41_multiply.md R138) -/

theorem roundNearest_of_nonneg {q : Rat} (h : 0 ≤ q) : roundNearest q = round q := by
  rw [round_eq]
  exact if_pos h

/-- Rounding is symmetric about 0, so a statement about it needs a proof for q ≥ 0 only. -/
theorem roundNearest_of_neg {q : Rat} (h : q < 0) : roundNearest q = -roundNearest (-q) := by
  rw [roundNearest_of_nonneg (q := -q) (by linarith), round_eq]
  exact if_neg (not_le.mpr h)

theorem abs_sub_roundNearest_le (q : Rat) : |q - (roundNearest q : Rat)| ≤ 1 / 2 := by
  rcases le_or_gt 0 q with h | h
  · rw [roundNearest_of_nonneg h]
    exact abs_sub_round q
  · rw [roundNearest_of_neg h, roundNearest_of_nonneg (by linarith), Int.cast_neg, sub_neg_eq_add, ← abs_neg, neg_add,
      ← sub_eq_add_neg]
    exact abs_sub_round (-q)

/-- An integer nearer than one half is what a value rounds to: two integers within one half of it differ by less than 1. -/
theorem roundNearest_eq_of_abs_sub_lt {q : Rat} {n : Int} (h : |q - (n : Rat)| < 1 / 2) : roundNearest q = n := by
  have hround := abs_sub_roundNearest_le q
  rw [abs_le] at hround
  rw [abs_lt] at h
  have hlt : (roundNearest q : Rat) < n + 1 := by linarith
  have hgt : (n : Rat) < roundNearest q + 1 := by linarith
  exact le_antisymm (Int.lt_add_one_iff.mp (by exact_mod_cast hlt)) (Int.lt_add_one_iff.mp (by exact_mod_cast hgt))

/-- A half above 0 is rounded upwards. -/
theorem abs_le_abs_roundNearest_of_nonneg {q : Rat} (hq : 0 ≤ q) {n : Int} (h : |q - (n : Rat)| = 1 / 2) :
    |n| ≤ |roundNearest q| := by
  have hle : (n : Rat) ≤ q + 1 / 2 := by linarith [(abs_le.mp h.le).1]
  have hlow : -1 < (n : Rat) := by linarith [(abs_le.mp h.le).2]
  have hn : 0 ≤ n := Int.lt_add_one_iff.mp (by exact_mod_cast (by linarith : (0 : Rat) < n + 1))
  rw [roundNearest_of_nonneg hq, round_eq, abs_of_nonneg hn]
  exact (Int.le_floor.mpr hle).trans (le_abs_self _)

theorem abs_le_abs_roundNearest (q : Rat) (n : Int) (h : |q - (n : Rat)| = 1 / 2) : |n| ≤ |roundNearest q| := by
  rcases le_or_gt 0 q with hq | hq
  · exact abs_le_abs_roundNearest_of_nonneg hq h
  · rw [roundNearest_of_neg hq, abs_neg, ← abs_neg n]
    refine abs_le_abs_roundNearest_of_nonneg (by linarith) ?_
    rw [Int.cast_neg, ← h, ← abs_neg]
    congr 1
    ring

/-- Settles O33, on the two sides of 0 of which each is the mirror image of the other. -/
theorem roundingIsToNearest : Obligations.RoundingIsToNearest :=
  fun q => ⟨abs_sub_roundNearest_le q, fun _ => roundNearest_eq_of_abs_sub_lt, abs_le_abs_roundNearest q⟩

/-! ### The transform length (41_multiply.md R132; 00_scope.md R13) -/

theorem le_two_pow_log2Up (n fuel k : Nat) (h : n ≤ 2 ^ (k + fuel)) : n ≤ 2 ^ log2Up n fuel k := by
  induction fuel generalizing k with
  | zero => exact h
  | succ fuel ih =>
    rw [log2Up]
    split_ifs with hk
    · exact hk
    · exact ih (k + 1) (by rwa [Nat.add_right_comm])

theorem le_nextPow2 (n : Nat) : n ≤ nextPow2 n :=
  le_two_pow_log2Up n n 0 (by rw [Nat.zero_add]; exact Nat.lt_two_pow_self.le)

/-- The transform is long enough for every coefficient of the product. -/
theorem add_length_le_transformLength (la lb : Nat) : la + lb ≤ transformLength la lb :=
  le_trans (by omega) (le_nextPow2 _)

/-! ### The coefficients (41_multiply.md R137) -/

/-- The polynomial whose coefficients are the limbs, least significant first. -/
noncomputable def limbPoly : List Nat → Polynomial ℕ
  | [] => 0
  | l :: ls => Polynomial.C l + Polynomial.X * limbPoly ls

theorem limbPoly_cons (l : Nat) (ls : List Nat) :
    limbPoly (l :: ls) = Polynomial.C l + Polynomial.X * limbPoly ls := rfl

theorem coeff_limbPoly (xs : List Nat) (k : Nat) : (limbPoly xs).coeff k = xs.getD k 0 := by
  induction xs generalizing k with
  | nil => simp [limbPoly]
  | cons x xs ih =>
    rw [limbPoly_cons, Polynomial.coeff_add]
    cases k with
    | zero => simp
    | succ k => simp [ih]

/-- The limbs' number is the value of their polynomial at R. -/
theorem eval_limbPoly (xs : List Nat) : (limbPoly xs).eval radix = magOf xs := by
  induction xs with
  | nil => simp [limbPoly]
  | cons x xs ih => simp [limbPoly_cons, magOf_cons, ih]

/-- The coefficients of the product are those of the product polynomial. -/
theorem coeff_limbPoly_mul (xs ys : List Nat) (k : Nat) : (limbPoly xs * limbPoly ys).coeff k = convCoeff xs ys k := by
  rw [Polynomial.coeff_mul,
    Finset.Nat.sum_antidiagonal_eq_sum_range_succ fun i j => (limbPoly xs).coeff i * (limbPoly ys).coeff j, convCoeff]
  simp only [coeff_limbPoly]
  rfl

theorem natDegree_limbPoly_le (xs : List Nat) : (limbPoly xs).natDegree ≤ xs.length - 1 := by
  rw [Polynomial.natDegree_le_iff_coeff_eq_zero]
  intro k hk
  rw [coeff_limbPoly, List.getD_eq_default _ _ (by omega)]

/-- The product polynomial has no coefficient at the transform's length or above. -/
theorem natDegree_limbPoly_mul_lt (xs ys : List Nat) :
    (limbPoly xs * limbPoly ys).natDegree < transformLength xs.length ys.length := by
  have hdegree := Polynomial.natDegree_mul_le (p := limbPoly xs) (q := limbPoly ys)
  have hx := natDegree_limbPoly_le xs
  have hy := natDegree_limbPoly_le ys
  have hlen := add_length_le_transformLength xs.length ys.length
  have hpos : 0 < transformLength xs.length ys.length := Nat.two_pow_pos _
  omega

theorem magOf_map_range (f : Nat → Nat) (n : Nat) :
    magOf ((List.range n).map f) = ∑ k ∈ Finset.range n, f k * radix ^ k := by
  induction n with
  | zero => rfl
  | succ n ih =>
    rw [List.range_succ, List.map_append, magOf_append, ih, Finset.sum_range_succ]
    simp [magOf_cons, mul_comm]

/-- The coefficients at the indices of the transform make the product. -/
theorem magOf_convCoeff (xs ys : List Nat) :
    magOf ((List.range (transformLength xs.length ys.length)).map (convCoeff xs ys)) = magOf xs * magOf ys := by
  rw [← eval_limbPoly xs, ← eval_limbPoly ys, ← Polynomial.eval_mul,
    Polynomial.eval_eq_sum_range' (natDegree_limbPoly_mul_lt xs ys), magOf_map_range]
  simp only [coeff_limbPoly_mul]

/-! ### The carry stage (41_multiply.md R140) -/

/-- The carry stage keeps the number that the coefficients make, without the carry out of its last position. -/
theorem magOf_carryStage (cr : Nat) (cs : List Nat) :
    magOf (carryStage cr cs) = (magOf cs + cr) % radix ^ cs.length := by
  induction cs generalizing cr with
  | nil => simp [carryStage, Nat.mod_one]
  | cons c cs ih =>
    have hmod : (c + radix * magOf cs + cr) % radix = (c + cr) % radix := by
      rw [Nat.add_right_comm, Nat.add_mul_mod_self_left]
    have hdiv : (c + radix * magOf cs + cr) / radix = magOf cs + (c + cr) / radix := by
      rw [Nat.add_right_comm, Nat.add_mul_div_left _ _ radix_pos, Nat.add_comm]
    rw [carryStage, magOf_cons, magOf_cons, ih, List.length_cons, pow_succ', Nat.mod_mul, hmod, hdiv]

theorem carryStage_lt_radix (cr : Nat) (cs : List Nat) : ∀ l ∈ carryStage cr cs, l < radix := by
  induction cs generalizing cr with
  | nil => nofun
  | cons c cs ih =>
    intro l hl
    rcases List.mem_cons.mp hl with rfl | hl
    · exact Nat.mod_lt _ radix_pos
    · exact ih _ l hl

/-! ### The pipeline (41_multiply.md R131, R139) -/

/-- Under the precision contract the rounded outputs are the exact coefficients. -/
theorem rounded_eq_convCoeff {lmax : Nat} {engine : List Nat → List Nat → Nat → Rat}
    (hcontract : PrecisionContract lmax engine) {xs ys : List Nat} (hx : NormalLimbs xs) (hy : NormalLimbs ys) (hxl : xs.length ≤ lmax) (hyl : ys.length ≤ lmax) :
    ((List.range (transformLength xs.length ys.length)).map fun k => (roundNearest (engine xs ys k)).toNat)
      = (List.range (transformLength xs.length ys.length)).map (convCoeff xs ys) := by
  refine List.map_congr_left fun k hk => ?_
  have hnear := hcontract xs ys hxl hyl hx.1 hy.1 k (List.mem_range.mp hk)
  rw [roundNearest_eq_of_abs_sub_lt (n := (convCoeff xs ys k : Int)) (by exact_mod_cast hnear), Int.toNat_natCast]

theorem magOf_mul_lt_pow {xs ys : List Nat} (hx : ∀ l ∈ xs, l < radix) (hy : ∀ l ∈ ys, l < radix) :
    magOf xs * magOf ys < radix ^ transformLength xs.length ys.length :=
  calc magOf xs * magOf ys < radix ^ xs.length * radix ^ ys.length :=
        Nat.mul_lt_mul'' (magOf_lt_pow xs hx) (magOf_lt_pow ys hy)
    _ = radix ^ (xs.length + ys.length) := (pow_add _ _ _).symm
    _ ≤ radix ^ transformLength xs.length ys.length :=
        Nat.pow_le_pow_right radix_pos (add_length_le_transformLength _ _)

theorem Sign.factor_mul (g h : Sign) : (if g = h then Sign.positive else .negative).factor = g.factor * h.factor := by
  cases g <;> cases h <;> rfl

/-- Settles O34: the rounded outputs are the product's coefficients, and the carry stage loses no carry, as the product fits. -/
theorem mulPipelineIsExact : Obligations.MulPipelineIsExact := by
  intro lmax engine hcontract sx sy xs ys hx hy hxl hyl
  have hmag : magOf (carryStage 0 ((List.range (transformLength xs.length ys.length)).map (convCoeff xs ys)))
      = magOf xs * magOf ys := by
    rw [magOf_carryStage, magOf_convCoeff, List.length_map, List.length_range, add_zero]
    exact Nat.mod_eq_of_lt (magOf_mul_lt_pow hx.1 hy.1)
  obtain ⟨hval, hnormal⟩ := normalise_spec (if sx = sy then .positive else .negative)
    (carryStage_lt_radix 0 ((List.range (transformLength xs.length ys.length)).map (convCoeff xs ys)))
  simp only [mulPipeline, rounded_eq_convCoeff hcontract hx hy hxl hyl]
  refine ⟨?_, hnormal⟩
  rw [hval, hmag, Sign.factor_mul]
  simp only [signedVal]
  push_cast
  ring

end Sys2Proof.Machine
end

section
/-! Proofs about the divide pipeline (42_divide.md R161 to R164) and the exponent's bookkeeping and loop (43_pow.md R186 to R191). -/

namespace Sys2Proof.Machine

/-! ### The digit search (42_divide.md R162) -/

/-- The binary search keeps `lo` a digit that does not exceed and every digit above `hi` one that does; each probe halves the
interval. -/
theorem searchDigit_spec (scaled rem fuel lo hi : Nat) (hle : lo ≤ hi) (hfuel : hi - lo < 2 ^ fuel)
    (hlo : lo * scaled ≤ rem) (hhi : ∀ d, d * scaled ≤ rem → d < radix → d ≤ hi) :
    searchDigit scaled rem fuel lo hi ≤ hi ∧ searchDigit scaled rem fuel lo hi * scaled ≤ rem
      ∧ ∀ d, d * scaled ≤ rem → d < radix → d ≤ searchDigit scaled rem fuel lo hi := by
  induction fuel generalizing lo hi with
  | zero =>
    obtain rfl : lo = hi := by omega
    exact ⟨le_rfl, hlo, hhi⟩
  | succ fuel ih =>
    simp only [searchDigit]
    rw [pow_succ] at hfuel
    split_ifs with hlt hmid
    · exact ih ((lo + hi + 1) / 2) hi (by omega) (by omega) hmid hhi
    · have hhi' : ∀ d, d * scaled ≤ rem → d < radix → d ≤ (lo + hi + 1) / 2 - 1 := by
        intro d hd _
        by_contra hgt
        exact hmid ((Nat.mul_le_mul_right scaled (by omega)).trans hd)
      obtain ⟨hle', hspec⟩ := ih lo ((lo + hi + 1) / 2 - 1) (by omega) (by omega) hlo hhi'
      exact ⟨by omega, hspec⟩
    · obtain rfl : lo = hi := by omega
      exact ⟨le_rfl, hlo, hhi⟩

/-- Settles O37: 20 probes are enough for the R digits. -/
theorem digitSearchFindsLargest : Obligations.DigitSearchFindsLargest := by
  intro scaled rem
  obtain ⟨hhi, hle, hlargest⟩ := searchDigit_spec scaled rem 20 0 (radix - 1) (Nat.zero_le _) (by decide)
    (by rw [Nat.zero_mul]; exact Nat.zero_le rem) fun d _ hd => Nat.le_sub_one_of_lt hd
  exact ⟨Nat.lt_of_le_sub_one radix_pos hhi, hle, fun d hd hdle => hlargest d hdle hd⟩

/-- Where the quotient is a digit, the search finds it. -/
theorem digitSearch_eq_div {scaled rem : Nat} (hpos : 0 < scaled) (hlt : rem < radix * scaled) :
    digitSearch scaled rem = rem / scaled := by
  obtain ⟨_, hle, hlargest⟩ := digitSearchFindsLargest scaled rem
  exact le_antisymm ((Nat.le_div_iff_mul_le hpos).mpr hle)
    (hlargest _ ((Nat.div_lt_iff_lt_mul hpos).mpr hlt) (Nat.div_mul_le_self rem scaled))

/-! ### The digit loop (42_divide.md R161) -/

theorem divLoop_length (d i rem : Nat) : (divLoop d i rem).1.length = i := by
  induction i generalizing rem with
  | zero => rfl
  | succ i ih => simp [divLoop, ih]

theorem divLoop_lt_radix (d i rem : Nat) : ∀ l ∈ (divLoop d i rem).1, l < radix := by
  induction i generalizing rem with
  | zero => nofun
  | succ i ih =>
    intro l hl
    rcases List.mem_append.mp hl with hl | hl
    · exact ih _ l hl
    · rw [List.mem_singleton.mp hl]
      exact (digitSearchFindsLargest _ _).1

/-- The digit loop divides a number of at most i digits more than the divisor. -/
theorem divLoop_spec (d : Nat) (hd : 0 < d) (i rem : Nat) (hrem : rem < d * radix ^ i) :
    magOf (divLoop d i rem).1 = rem / d ∧ (divLoop d i rem).2 = rem % d := by
  induction i generalizing rem with
  | zero =>
    rw [pow_zero, mul_one] at hrem
    exact ⟨(Nat.div_eq_of_lt hrem).symm, (Nat.mod_eq_of_lt hrem).symm⟩
  | succ i ih =>
    have hscaled : 0 < d * radix ^ i := Nat.mul_pos hd (pow_pos radix_pos i)
    have hdigit : digitSearch (d * radix ^ i) rem = rem / (d * radix ^ i) :=
      digitSearch_eq_div hscaled (by rw [pow_succ] at hrem; linarith)
    have hrest : rem - rem / (d * radix ^ i) * (d * radix ^ i) = rem % (d * radix ^ i) := by
      rw [Nat.mul_comm, Nat.mod_eq_sub]
    obtain ⟨hquot, hmod⟩ := ih (rem % (d * radix ^ i)) (Nat.mod_lt _ hscaled)
    simp only [divLoop, hdigit, hrest, magOf_append, magOf_cons, magOf_nil, divLoop_length, hquot, hmod]
    refine ⟨?_, Nat.mod_mul_right_mod _ _ _⟩
    rw [mul_zero, add_zero, Nat.mod_mul_right_div_self, ← Nat.div_div_eq_div_mul, Nat.mod_add_div]

theorem magDivMod_spec (xs ys : List Nat) (hx : ∀ l ∈ xs, l < radix) (hy : 0 < magOf ys) :
    magOf (magDivMod xs ys).1 = magOf xs / magOf ys ∧ (magDivMod xs ys).2 = magOf xs % magOf ys := by
  have hlt : magOf xs < magOf ys * radix ^ xs.length :=
    (magOf_lt_pow xs hx).trans_le (Nat.le_mul_of_pos_left _ hy)
  obtain ⟨hquot, hrem⟩ := divLoop_spec (magOf ys) hy xs.length (magOf xs) hlt
  exact ⟨(magOf_stripZeros _).trans hquot, hrem⟩

/-! ### The signed division (42_divide.md R164) -/

theorem Sign.factor_tdiv (g h : Sign) (m n : Nat) :
    (g.factor * (m : Int)).tdiv (h.factor * n)
      = (if g = h then Sign.positive else .negative).factor * ((m / n : Nat) : Int) := by
  cases g <;> cases h <;> simp [Sign.factor]

theorem Sign.factor_tmod (g h : Sign) (m n : Nat) :
    (g.factor * (m : Int)).tmod (h.factor * n) = g.factor * ((m % n : Nat) : Int) := by
  cases g <;> cases h <;> simp [Sign.factor, Int.tmod_eq_emod_of_nonneg]

/-- Settles O38: the digit loop divides the magnitudes, and truncation treats the signs apart. -/
theorem dividePipelineIsExact : Obligations.DividePipelineIsExact := by
  intro sx sy xs ys hx hy
  obtain ⟨hquot, hrem⟩ := magDivMod_spec xs ys hx hy
  refine ⟨hquot, hrem, normalLimbs_stripZeros (divLoop_lt_radix _ _ _), ?_⟩
  simp only [sdivmod, signedVal, Sign.factor_tdiv, Sign.factor_tmod, hquot, hrem]

/-! ### Halving and parity (43_pow.md R186) -/

theorem two_dvd_radix : 2 ∣ radix := by decide

/-- The radix is even, so the lowest limb has the number's parity. -/
theorem magOf_mod_two (xs : List Nat) : magOf xs % 2 = xs.getD 0 0 % 2 := by
  obtain ⟨h, hh⟩ := two_dvd_radix
  cases xs with
  | nil => rfl
  | cons x xs =>
    rw [magOf_cons, hh, mul_assoc, Nat.add_mul_mod_self_left, List.getD_cons_zero]

theorem halveFromTop_length (c : Nat) (ls : List Nat) : (halveFromTop c ls).length = ls.length := by
  induction ls generalizing c with
  | nil => rfl
  | cons l ls ih => rw [halveFromTop, List.length_cons, ih, List.length_cons]

/-- Halving from the top, with a bit carried in, halves the number with that bit above it. -/
theorem magOf_halveFromTop (c : Nat) (hc : c < 2) (ls : List Nat) :
    magOf (halveFromTop c ls).reverse = (magOf ls.reverse + radix ^ ls.length * c) / 2 := by
  induction ls generalizing c with
  | nil => exact (Nat.div_eq_of_lt (by simpa using hc)).symm
  | cons l ls ih =>
    have hsplit : radix ^ ls.length * l + radix ^ (ls.length + 1) * c
        = radix ^ ls.length * ((c * radix + l) % 2) + radix ^ ls.length * ((c * radix + l) / 2) * 2 := by
      rw [mul_assoc, ← mul_add, mul_comm _ 2, Nat.mod_add_div, pow_succ]
      ring
    rw [halveFromTop, List.reverse_cons, magOf_append, ih _ (Nat.mod_lt _ two_pos), List.length_reverse,
      halveFromTop_length, List.reverse_cons, magOf_append, List.length_reverse, List.length_cons, magOf_cons, magOf_cons, magOf_nil,
      mul_zero, add_zero, add_zero, add_assoc, hsplit, ← add_assoc, Nat.add_mul_div_right _ _ two_pos]

theorem halveFromTop_lt_radix (c : Nat) (hc : c < 2) (ls : List Nat) (h : ∀ l ∈ ls, l < radix) :
    ∀ l ∈ halveFromTop c ls, l < radix := by
  induction ls generalizing c with
  | nil => nofun
  | cons x ls ih =>
    intro l hl
    have hx := h x List.mem_cons_self
    rcases List.mem_cons.mp hl with rfl | hl
    · have hcarry : c * radix ≤ radix := by
        interval_cases c <;> omega
      omega
    · exact ih _ (Nat.mod_lt _ two_pos) (fun l hl => h l (List.mem_cons_of_mem x hl)) l hl

/-- Settles O39: the carried bits are the halves of odd limbs, and the even radix leaves the parity to the lowest limb. -/
theorem exponentBookkeepingIsExact : Obligations.ExponentBookkeepingIsExact := by
  intro xs hx
  refine ⟨?_, normalLimbs_stripZeros ?_, ?_⟩
  · rw [halve, magOf_stripZeros, magOf_halveFromTop 0 two_pos, List.reverse_reverse, Nat.mul_zero, Nat.add_zero]
  · simpa using halveFromTop_lt_radix 0 two_pos xs.reverse (by simpa using hx)
  · rw [oddLimbs, beq_iff_eq, magOf_mod_two]

/-! ### The control loop (43_pow.md R187, R190, R191) -/

/-- Settles O40, by `powResult_eq_powValue`. -/
theorem powLoopIsClosedForm : Obligations.PowLoopIsClosedForm :=
  fun _ a e m hl => powResult_eq_powValue hl a e m

theorem powResult_of_modulus_ne_zero (lmax : Nat) (a : Int) (e : Nat) {m : Int} (hm : m ≠ 0) :
    powResult lmax a e m = .ok (powValue a e m) := by
  by_cases he : e = 0
  · rw [powResult, powLoop_of_exponent_zero _ _ _ _ he, powValue, if_pos he]
  · rw [powResult, powLoop_of_modulus_ne_zero lmax hm _ _ (lt_two_pow_bitLength e) he, powValue, if_neg he, if_neg hm,
      PowRegs.power, one_mul]

/-- Each modular multiplication of the chain moves one factor out of the reduction. -/
theorem iterate_mul_tmod (a m : Int) (e : Nat) : (fun acc : Int => (acc * a).tmod m)^[e + 1] 1 = (a ^ (e + 1)).tmod m := by
  induction e with
  | zero => simp
  | succ e ih => rw [Function.iterate_succ_apply', ih, pow_succ a (e + 1), Int.mul_tmod, Int.tmod_tmod, ← Int.mul_tmod]

/-- Settles O41: the loop and the chain both reduce the power, and neither reduces for e = 0. -/
theorem powIsRepeatedMultiplication : Obligations.PowIsRepeatedMultiplication := by
  intro lmax a e m hm
  rw [powResult_of_modulus_ne_zero lmax a e hm]
  cases e with
  | zero => rfl
  | succ e => rw [iterate_mul_tmod, powValue, if_neg e.succ_ne_zero, if_neg hm]

end Sys2Proof.Machine
end

section
/-! Proofs about the transform and the convolution engine in exact arithmetic (41_multiply.md R133 to R137): the recursion computes the
discrete Fourier transform, and the inverse transform of the pointwise product gives the coefficients of the product. -/

namespace Sys2Proof.Machine

/-! ### The recursion (41_multiply.md R133, R135) -/

section
variable {K : Type} [CommRing K]

/-- A sum over 2n indices, the even and the odd ones apart. -/
theorem sum_range_two_mul (f : Nat → K) (n : Nat) :
    ∑ j ∈ Finset.range (2 * n), f j
      = ∑ j ∈ Finset.range n, f (2 * j) + ∑ j ∈ Finset.range n, f (2 * j + 1) := by
  induction n with
  | zero => simp
  | succ n ih =>
    rw [Nat.mul_succ, Finset.sum_range_succ, Finset.sum_range_succ, ih, Finset.sum_range_succ, Finset.sum_range_succ]
    ring

/-- The discrete Fourier sum of N values at a root w. -/
def fourierSum (w : K) (n : Nat) (a : Nat → K) (m : Nat) : K :=
  ∑ j ∈ Finset.range n, a j * w ^ (j * m)

theorem fourierSum_congr {w : K} {n m : Nat} {a b : Nat → K} (h : ∀ j < n, a j = b j) :
    fourierSum w n a m = fourierSum w n b m :=
  Finset.sum_congr rfl fun j hj => by rw [h j (Finset.mem_range.mp hj)]

/-- The Cooley–Tukey step: a sum of 2n values from the sums of the even and of the odd ones at the square of the root. -/
theorem fourierSum_two_mul (w : K) (n : Nat) (a : Nat → K) (m : Nat) :
    fourierSum w (2 * n) a m
      = fourierSum (w ^ 2) n (fun j => a (2 * j)) m + w ^ m * fourierSum (w ^ 2) n (fun j => a (2 * j + 1)) m := by
  rw [fourierSum, sum_range_two_mul, fourierSum, fourierSum, Finset.mul_sum]
  congr 1
  · exact Finset.sum_congr rfl fun j _ => by rw [← pow_mul, mul_assoc]
  · exact Finset.sum_congr rfl fun j _ => by rw [← pow_mul]; ring

/-- A Fourier sum at an n-th root of unity is periodic. -/
theorem fourierSum_add_period {w : K} {n : Nat} (hw : w ^ n = 1) (a : Nat → K) (m : Nat) :
    fourierSum w n a (m + n) = fourierSum w n a m := by
  refine Finset.sum_congr rfl fun j _ => ?_
  rw [mul_add, pow_add, mul_comm j n, pow_mul w n, hw, one_pow, mul_one]

/-- What the recursion needs of its roots: each squares to the one before it, and half a turn is −1. -/
structure HalvingRoots (root : Nat → K) : Prop where
  sq : ∀ k, root (k + 1) ^ 2 = root k
  half : ∀ k, root (k + 1) ^ 2 ^ k = -1

theorem HalvingRoots.pow_two_pow {root : Nat → K} (h : HalvingRoots root) (k : Nat) :
    root k ^ 2 ^ k = 1 := by
  rw [← h.sq, ← pow_mul, mul_comm, pow_mul, h.half, neg_one_sq]

/-- The recursive transform is the Fourier sum, scaled at every level. -/
theorem fft_eq_fourierSum {root : Nat → K} (h : HalvingRoots root) (scale : K) (k : Nat) (a : Nat → K)
    (m : Nat) (hm : m < 2 ^ k) : fft root scale k a m = scale ^ k * fourierSum (root k) (2 ^ k) a m := by
  induction k generalizing a m with
  | zero =>
    obtain rfl : m = 0 := by simpa using hm
    simp [fft, fourierSum]
  | succ k ih =>
    simp only [fft]
    rw [pow_succ', pow_succ', fourierSum_two_mul, h.sq]
    split_ifs with hlow
    · rw [ih _ m hlow, ih _ m hlow]
      ring
    · obtain ⟨i, rfl⟩ := Nat.exists_eq_add_of_le' (not_lt.mp hlow)
      have hi : i < 2 ^ k := by
        rw [pow_succ] at hm
        omega
      rw [Nat.add_sub_cancel, ih _ i hi, ih _ i hi, fourierSum_add_period (h.pow_two_pow k),
        fourierSum_add_period (h.pow_two_pow k), pow_add, h.half]
      ring

end

/-- The roots exp(z / 2^l) of a half turn z / 2. -/
theorem halvingRoots_exp {z : ℂ} (hz : Complex.exp (z / 2) = -1) : HalvingRoots fun l => Complex.exp (z / 2 ^ l) where
  sq k := by
    rw [← Complex.exp_nat_mul, pow_succ]
    congr 1
    push_cast
    field_simp
  half k := by
    rw [← Complex.exp_nat_mul, pow_succ, ← hz]
    congr 1
    push_cast
    field_simp

/-- The forward root of level k, a primitive 2^k-th root of unity (41_multiply.md R133). -/
noncomputable def unityRoot (k : Nat) : ℂ :=
  Complex.exp (2 * Real.pi * Complex.I / 2 ^ k)

/-- The inverse root of level k, the angle's sign flipped (41_multiply.md R134). -/
noncomputable def unityRootInv (k : Nat) : ℂ :=
  Complex.exp (-(2 * Real.pi * Complex.I) / 2 ^ k)

theorem unityRootInv_eq_inv (k : Nat) : unityRootInv k = (unityRoot k)⁻¹ := by
  rw [unityRootInv, unityRoot, neg_div, Complex.exp_neg]

theorem unityRoot_isPrimitiveRoot (k : Nat) : IsPrimitiveRoot (unityRoot k) (2 ^ k) := by
  have hprim := Complex.isPrimitiveRoot_exp (2 ^ k) (Nat.two_pow_pos k).ne'
  rwa [Nat.cast_pow, Nat.cast_ofNat] at hprim

theorem exp_two_pi_I_half : Complex.exp (2 * Real.pi * Complex.I / 2) = -1 := by
  rw [mul_assoc, mul_div_cancel_left₀ _ two_ne_zero, Complex.exp_pi_mul_I]

theorem exp_neg_two_pi_I_half : Complex.exp (-(2 * Real.pi * Complex.I) / 2) = -1 := by
  rw [neg_div, Complex.exp_neg, exp_two_pi_I_half, inv_neg_one]

theorem fft_unityRoot (k : Nat) (a : Nat → ℂ) (m : Nat) (hm : m < 2 ^ k) :
    fft unityRoot 1 k a m = fourierSum (unityRoot k) (2 ^ k) a m := by
  have hroots : HalvingRoots unityRoot := halvingRoots_exp exp_two_pi_I_half
  rw [fft_eq_fourierSum hroots 1 k a m hm, one_pow, one_mul]

theorem fft_unityRootInv (k : Nat) (a : Nat → ℂ) (m : Nat) (hm : m < 2 ^ k) :
    fft unityRootInv (1 / 2) k a m = (1 / 2 ^ k) * fourierSum (unityRootInv k) (2 ^ k) a m := by
  have hroots : HalvingRoots unityRootInv := halvingRoots_exp exp_neg_two_pi_I_half
  rw [fft_eq_fourierSum hroots (1 / 2) k a m hm, one_div_pow]

/-- Settles O35: both directions are the one recursion, on roots of which half a turn is −1. -/
theorem transformIsFourier : Obligations.TransformIsFourier :=
  fun k a m hm => ⟨fft_unityRoot k a m hm, fft_unityRootInv k a m hm⟩

/-! ### The convolution theorem (41_multiply.md R136) -/

/-- The powers of an n-th root of unity other than 1 add up to 0. -/
theorem geom_sum_eq_zero_of_pow_eq_one {x : ℂ} {n : Nat} (hx : x ^ n = 1) (hne : x ≠ 1) : ∑ i ∈ Finset.range n, x ^ i = 0 := by
  rw [geom_sum_eq hne, hx, sub_self, zero_div]

/-- The inverse Fourier sum undoes the Fourier sum, up to the factor n. -/
theorem fourierSum_inv_fourierSum {w : ℂ} {n : Nat} (hw : IsPrimitiveRoot w n) (c : Nat → ℂ) (m : Nat) (hm : m < n) :
    fourierSum w⁻¹ n (fourierSum w n c) m = n * c m := by
  have hn : n ≠ 0 := Nat.ne_of_gt (Nat.zero_lt_of_lt hm)
  have hw0 : w ≠ 0 := hw.ne_zero hn
  have hterm : ∀ i k : Nat, c k * w ^ (k * i) * w⁻¹ ^ (i * m) = c k * (w ^ k * w⁻¹ ^ m) ^ i := by
    intro i k
    rw [mul_pow, ← pow_mul, ← pow_mul, mul_comm i m, mul_assoc]
  have horth : ∀ k ∈ Finset.range n, k ≠ m → ∑ i ∈ Finset.range n, (w ^ k * w⁻¹ ^ m) ^ i = 0 := by
    intro k hk hne
    refine geom_sum_eq_zero_of_pow_eq_one ?_ fun hone => hne ?_
    · rw [mul_pow, ← pow_mul, ← pow_mul, mul_comm k, mul_comm m, pow_mul, pow_mul, inv_pow, hw.pow_eq_one, inv_one, one_pow,
        one_pow, one_mul]
    · rw [inv_pow, mul_inv_eq_one₀ (pow_ne_zero m hw0)] at hone
      exact hw.pow_inj (Finset.mem_range.mp hk) hm hone
  simp only [fourierSum, Finset.sum_mul, hterm]
  rw [Finset.sum_comm]
  simp only [← Finset.mul_sum]
  rw [Finset.sum_eq_single_of_mem m (Finset.mem_range.mpr hm) fun k hk hne => by rw [horth k hk hne, mul_zero]]
  simp [hw0, mul_comm]

/-- The Fourier sum of a polynomial's coefficients is its value at the power of the root. -/
theorem eval_limbPoly_eq_fourierSum (p : Polynomial ℕ) (w : ℂ) (n i : Nat) (hp : p.natDegree < n) :
    p.eval₂ (Nat.castRingHom ℂ) (w ^ i) = fourierSum w n (fun k => (p.coeff k : ℂ)) i := by
  rw [Polynomial.eval₂_eq_sum_range' _ hp]
  exact Finset.sum_congr rfl fun k _ => by rw [← pow_mul, mul_comm i]; rfl

/-- The pointwise product of the transforms of two limb sequences is the transform of the product's coefficients. -/
theorem fourierSum_coeffs_mul (xs ys : List Nat) (w : ℂ) (i : Nat) :
    fourierSum w (transformLength xs.length ys.length) (coeffs xs) i
        * fourierSum w (transformLength xs.length ys.length) (coeffs ys) i
      = fourierSum w (transformLength xs.length ys.length) (fun k => (convCoeff xs ys k : ℂ)) i := by
  have hlen := add_length_le_transformLength xs.length ys.length
  have hpos : 0 < transformLength xs.length ys.length := Nat.two_pow_pos _
  have hx := natDegree_limbPoly_le xs
  have hy := natDegree_limbPoly_le ys
  have hxs := eval_limbPoly_eq_fourierSum (limbPoly xs) w (transformLength xs.length ys.length) i (by omega)
  have hys := eval_limbPoly_eq_fourierSum (limbPoly ys) w (transformLength xs.length ys.length) i (by omega)
  have hmul := eval_limbPoly_eq_fourierSum (limbPoly xs * limbPoly ys) w _ i (natDegree_limbPoly_mul_lt xs ys)
  simp only [coeff_limbPoly, coeff_limbPoly_mul] at hxs hys hmul
  rw [← hmul, Polynomial.eval₂_mul, hxs, hys]
  rfl

/-- If the product of the transforms of a and b is the transform of c, the engine gives c (41_multiply.md R136). -/
theorem exactEngine_eq (k : Nat) (a b c : Nat → ℂ)
    (hprod : ∀ i, fourierSum (unityRoot k) (2 ^ k) a i * fourierSum (unityRoot k) (2 ^ k) b i
      = fourierSum (unityRoot k) (2 ^ k) c i)
    (m : Nat) (hm : m < 2 ^ k) : exactEngine unityRoot unityRootInv (1 / 2) k a b m = c m := by
  have hpoint : ∀ i < 2 ^ k, fft unityRoot 1 k a i * fft unityRoot 1 k b i = fourierSum (unityRoot k) (2 ^ k) c i :=
    fun i hi => by rw [fft_unityRoot k a i hi, fft_unityRoot k b i hi, hprod]
  rw [exactEngine, fft_unityRootInv k _ m hm, fourierSum_congr hpoint, unityRootInv_eq_inv,
    fourierSum_inv_fourierSum (unityRoot_isPrimitiveRoot k) c m hm]
  push_cast
  rw [← mul_assoc, one_div_mul_cancel (pow_ne_zero k two_ne_zero), one_mul]

/-- Settles O36: the transforms of the limbs multiply to the transform of the product's coefficients, which the transform's length
holds without wrap-around. -/
theorem engineComputesProductCoefficients : Obligations.EngineComputesProductCoefficients :=
  fun xs ys m hm => exactEngine_eq _ _ _ _ (fourierSum_coeffs_mul xs ys _) m hm

end Sys2Proof.Machine
end

section
/-! Proofs about the load procedure (20_memory.md R78): the accesses write LREG, then cell after cell of the encoding, then sign and
len, and the register then holds what the encoding holds. -/

namespace Sys2Proof.Machine

/-! ### Runs -/

/-- A run goes on where a shorter one ended. -/
theorem run_add_of_run (M : Host.Core) (m n : Nat) {s t : M.State} (h : M.run m s = .next t) :
    M.run (m + n) s = M.run n t := by
  induction m generalizing s with
  | zero =>
    cases h
    rw [Nat.zero_add]
  | succ m ih =>
    rw [Nat.succ_add]
    simp only [Host.Core.run] at h ⊢
    cases hstep : M.step s with
    | next u =>
      simp only [hstep] at h ⊢
      exact ih h
    | fault _ => simp [hstep] at h
    | refused _ => simp [hstep] at h

theorem SafeRun.append {m n : Nat} {s t u : State} (hst : SafeRun m s t) (htu : SafeRun n t u) : SafeRun (m + n) s u :=
  (run_add_of_run core m n hst).trans htu

theorem SafeRun.of_step {s t : State} (h : step s = .next t) : SafeRun 1 s t :=
  safeRun_succ h (safeRun_zero t)

/-- A write turn of a host procedure is the write to the register at its offset. -/
theorem step_writeTurn {s : State} {off : Nat} {v : Word} {rest : List Turn} (hagenda : s.agenda = writeTurn s.cfg off v :: rest)
    (hoff : off < windowBytes) (halign : off % 4 = 0) :
    step s = .next (mmioWrite (mmioAt off) v { s with agenda := rest }) := by
  have hwin : inWindow s.cfg (.write (s.cfg.mmioBase + off) (toLanes v)) = true :=
    (inWindow_iff _ _).mpr ⟨Nat.le_add_right _ _, Nat.add_lt_add_left hoff _⟩
  have hturn := hostTurn_write (s.cfg.mmioBase + off) (toLanes v) { s with agenda := rest } hwin
  rw [step_of_host s _ rest hagenda, hturn, Nat.add_sub_cancel_left, hostWrite_toLanes off v _ halign]

/-! ### The writes of the procedure (20_memory.md R41, R66, R68) -/

theorem writeLidx_ofNat_of_lt {k : Nat} (h : k < 2 ^ 16) (s : State) :
    writeLidx (BitVec.ofNat 32 k) s = { s with lidx := BitVec.ofNat 16 k } := by
  have hk : (BitVec.ofNat 16 k).toNat = k := by simpa using h
  rw [← writeLidx_ofNat, hk]

/-- An LDATA write of a limb stores the limb. -/
theorem writeLdata_limb (x : Limb) (hx : x.toNat < radix) (s : State) (hp : s.pending = Option.none)
    (hi : s.lidx.toNat < s.cfg.lmax) :
    writeLdata (x.setWidth 32) s
      = s.setReg s.lreg { s.reg s.lreg with limb := (s.reg s.lreg).limb.set s.lidx.toNat x } := by
  have hword : (x.setWidth 32).toNat = x.toNat := by
    rw [BitVec.toNat_setWidth, Nat.mod_eq_of_lt (x.isLt.trans (by decide))]
  have hlimb : (x.setWidth 32).extractLsb' 0 20 = x := by
    apply BitVec.eq_of_toNat_eq
    rw [toNat_extractLsb'_of_lt_radix _ (hword ▸ hx), hword]
  rw [writeLdata_of_accepted _ s hp hi (hword ▸ hx), hlimb]

/-- An LMETA write of what LMETA reads of a register with a legal len gives B[LREG] that sign and len. -/
theorem writeLmeta_metaWord (b : BigReg) (s : State) (hp : s.pending = Option.none) (hlen : b.len.toNat ≤ s.cfg.lmax) :
    writeLmeta b.metaWord s = s.setReg s.lreg { s.reg s.lreg with sign := b.sign, len := b.len } := by
  have hlt := b.len.isLt
  have hword : b.metaWord.toNat = 2 ^ 31 * b.sign.toBit.toNat + b.len.toNat := by
    have hbit := b.sign.toBit.isLt
    rw [b.metaWord_eq_ofNat, BitVec.toNat_ofNat]
    omega
  have hsign : (if 2 ^ 31 ≤ b.metaWord.toNat then Sign.negative else .positive) = b.sign := by
    rw [hword]
    cases b.sign with
    | positive => exact if_neg (not_le.mpr (by simp [Sign.toBit]; omega))
    | negative => exact if_pos (by simp [Sign.toBit])
  have hmod : b.metaWord.toNat % 2 ^ 16 = b.len.toNat := by omega
  rw [writeLmeta_of_accepted _ s hp (by omega) (by omega), hsign, hmod, BitVec.ofNat_toNat, BitVec.setWidth_eq]

/-! ### The load of the limbs -/

/-- The state on the way through the load of B[r]: the register file, LIDX and the turns to come vary, LREG holds r. -/
def State.loading (s : State) (r : Reg) (regs : Vector BigReg 16) (lidx : BitVec 16) (agenda : List Turn) : State :=
  { s with regs := regs, lreg := r, lidx := lidx, agenda := agenda }

section
variable (s : State) (r : Reg) (regs : Vector BigReg 16) (lidx : BitVec 16) (rest : List Turn)

theorem State.step_loading (off : Nat) (v : Word) (hoff : off < windowBytes) (halign : off % 4 = 0) :
    step (s.loading r regs lidx (writeTurn s.cfg off v :: rest))
      = .next (mmioWrite (mmioAt off) v (s.loading r regs lidx rest)) :=
  step_writeTurn rfl hoff halign

theorem State.step_loading_lidx {k : Nat} (hk : k < 2 ^ 16) :
    step (s.loading r regs lidx (writeTurn s.cfg 0x1C (BitVec.ofNat 32 k) :: rest))
      = .next (s.loading r regs (BitVec.ofNat 16 k) rest) :=
  (s.step_loading r regs lidx rest 0x1C _ (by decide) rfl).trans
    (congrArg Host.Outcome.next (writeLidx_ofNat_of_lt hk (s.loading r regs lidx rest)))

theorem State.step_loading_ldata (hp : s.pending = Option.none) (hi : lidx.toNat < s.cfg.lmax) {x : Limb}
    (hx : x.toNat < radix) :
    step (s.loading r regs lidx (writeTurn s.cfg 0x20 (x.setWidth 32) :: rest))
      = .next (s.loading r
          (regs.set r.val { regs.get r with limb := (regs.get r).limb.set lidx.toNat x } r.isLt) lidx rest) :=
  (s.step_loading r regs lidx rest 0x20 _ (by decide) rfl).trans
    (congrArg Host.Outcome.next (writeLdata_limb x hx (s.loading r regs lidx rest) hp hi))

theorem State.step_loading_lmeta (hp : s.pending = Option.none) {b : BigReg} (hlen : b.len.toNat ≤ s.cfg.lmax) :
    step (s.loading r regs lidx (writeTurn s.cfg 0x24 b.metaWord :: rest))
      = .next (s.loading r (regs.set r.val { regs.get r with sign := b.sign, len := b.len } r.isLt) lidx rest) :=
  (s.step_loading r regs lidx rest 0x24 _ (by decide) rfl).trans
    (congrArg Host.Outcome.next (writeLmeta_metaWord b (s.loading r regs lidx rest) hp hlen))

end

/-- The register file once the first k limbs of v stand in B[r]: its other registers are those of s. -/
structure LimbsLoaded (s : State) (r : Reg) (v : Int) (k : Nat) (regs : Vector BigReg 16) : Prop where
  others : ∀ q, q ≠ r → regs.get q = s.reg q
  length : (regs.get r).limb.length = s.cfg.lmax
  cells : ∀ i < k, (regs.get r).cell i = (enc s.cfg.lmax v).cell i

section
variable {s : State} {r : Reg} {v : Int} {k : Nat} {regs : Vector BigReg 16}

/-- The register file's read after write. -/
theorem get_set_same (regs : Vector BigReg 16) (r : Reg) (b : BigReg) : (regs.set r.val b r.isLt).get r = b := by
  simp [Vector.get_eq_getElem]

theorem get_set_of_ne (regs : Vector BigReg 16) {r q : Reg} (b : BigReg) (h : q ≠ r) :
    (regs.set r.val b r.isLt).get q = regs.get q := by
  have hne : r.val ≠ q.val := fun heq => h (Fin.ext heq.symm)
  simp [Vector.get_eq_getElem, hne]

/-- With one more limb stored, one more limb is loaded. -/
theorem LimbsLoaded.set_limb (h : LimbsLoaded s r v k regs) (hk : k < s.cfg.lmax) :
    LimbsLoaded s r v (k + 1)
      (regs.set r.val { regs.get r with limb := (regs.get r).limb.set k ((enc s.cfg.lmax v).cell k) } r.isLt) := by
  constructor
  · intro q hq
    rw [get_set_of_ne _ _ hq, h.others q hq]
  · rw [get_set_same, List.length_set, h.length]
  · intro i hi
    rw [get_set_same]
    by_cases hik : i = k
    · rw [hik, BigReg.cell_set_same _ _ _ (by rwa [h.length])]
    · rw [BigReg.cell_set_of_ne _ _ _ _ hik, h.cells i (by omega)]

theorem enc_cell_lt_radix (lmax : Nat) (v : Int) (i : Nat) (hi : i < lmax) : ((enc lmax v).cell i).toNat < radix := by
  rw [enc_cell lmax v i hi]
  exact Nat.mod_lt _ radix_pos

/-- Two turns load the next limb. -/
theorem LimbsLoaded.run_loadLimb (h : LimbsLoaded s r v k regs) (hp : s.pending = Option.none)
    (hcfg : s.cfg.wellFormed = true) (hk : k < s.cfg.lmax) (lidx : BitVec 16) (rest : List Turn) :
    ∃ regs' lidx', SafeRun 2 (s.loading r regs lidx (loadLimb s.cfg v k ++ rest)) (s.loading r regs' lidx' rest)
      ∧ LimbsLoaded s r v (k + 1) regs' := by
  have hk16 : k < 2 ^ 16 := hk.trans (Config.lmax_lt_of_wellFormed hcfg)
  have hidx : (BitVec.ofNat 16 k).toNat = k := by simpa using hk16
  have hfirst := s.step_loading_lidx r regs lidx
    (writeTurn s.cfg 0x20 (((enc s.cfg.lmax v).cell k).setWidth 32) :: rest) hk16
  have hsecond := s.step_loading_ldata r regs (BitVec.ofNat 16 k) rest hp (hidx.trans_lt hk)
    (enc_cell_lt_radix s.cfg.lmax v k hk)
  rw [hidx] at hsecond
  exact ⟨_, _, safeRun_succ hfirst (SafeRun.of_step hsecond), h.set_limb hk⟩

/-- The turns of the first n limbs load them. -/
theorem LimbsLoaded.run_loadLimbs (h : LimbsLoaded s r v 0 regs) (hp : s.pending = Option.none)
    (hcfg : s.cfg.wellFormed = true) (n : Nat) (hn : n ≤ s.cfg.lmax) (lidx : BitVec 16) (rest : List Turn) :
    ∃ regs' lidx', SafeRun ((List.range n).flatMap (loadLimb s.cfg v)).length
        (s.loading r regs lidx ((List.range n).flatMap (loadLimb s.cfg v) ++ rest)) (s.loading r regs' lidx' rest)
      ∧ LimbsLoaded s r v n regs' := by
  induction n generalizing rest with
  | zero => exact ⟨regs, lidx, safeRun_zero _, h⟩
  | succ n ih =>
    obtain ⟨regs₁, lidx₁, hrun₁, h₁⟩ := ih (Nat.le_of_succ_le hn) (loadLimb s.cfg v n ++ rest)
    obtain ⟨regs₂, lidx₂, hrun₂, h₂⟩ := h₁.run_loadLimb hp hcfg hn lidx₁ rest
    refine ⟨regs₂, lidx₂, ?_, h₂⟩
    rw [List.range_succ, List.flatMap_append, List.length_append, List.flatMap_singleton, List.append_assoc]
    exact hrun₁.append hrun₂

end

/-! ### The loaded register -/

/-- A limb of a register is one of its cells below len. -/
theorem BigReg.exists_cell_of_mem_limbs {b : BigReg} {l : Nat} (h : l ∈ b.limbs) :
    ∃ i < b.len.toNat, (b.cell i).toNat = l := by
  obtain ⟨i, hi, rfl⟩ := List.mem_iff_getElem.mp h
  have hlt := hi.trans_le b.limbs_length_le
  exact ⟨i, hlt, (b.getD_limbs i hlt).symm.trans (List.getD_eq_getElem _ _ hi)⟩

theorem BigReg.cell_lt_radix_of_wf {lmax : Nat} {b : BigReg} (h : b.wf lmax = true) {i : Nat} (hi : i < b.len.toNat) :
    (b.cell i).toNat < radix := by
  rw [← b.getD_limbs i hi]
  exact getD_lt_radix (BigReg.normalLimbs_of_wf h).1 i

/-- A register that agrees with a well-formed one in sign, len and the cells below len is well formed, too. -/
theorem BigReg.wf_of_agree {lmax : Nat} {b c : BigReg} (h : b.wf lmax = true) (hsign : c.sign = b.sign) (hlen : c.len = b.len)
    (hcell : ∀ i < b.len.toNat, c.cell i = b.cell i) : c.wf lmax = true := by
  obtain ⟨hle, _, htop, hpos⟩ := (b.wf_iff lmax).mp h
  rw [BigReg.wf_iff, hsign, hlen]
  refine ⟨hle, fun l hl => ?_, ?_, hpos⟩
  · obtain ⟨i, hi, rfl⟩ := BigReg.exists_cell_of_mem_limbs hl
    rw [hlen] at hi
    rw [hcell i hi]
    exact BigReg.cell_lt_radix_of_wf h hi
  · by_cases hzero : b.len.toNat = 0
    · exact .inl hzero
    · rw [hcell _ (by omega)]
      exact htop

theorem LimbsLoaded.of_start {s : State} (h : s.Inv) (r : Reg) (v : Int) : LimbsLoaded s r v 0 s.regs where
  others _ _ := rfl
  length := (h.regs r).1
  cells _ hi := absurd hi (Nat.not_lt_zero _)

/-- With all limbs loaded, B[r] with the sign and len of the encoding holds the value. -/
theorem LimbsLoaded.holds {s : State} {r : Reg} {v : Int} {regs : Vector BigReg 16} (h : LimbsLoaded s r v (nlen v) regs)
    (hl : s.cfg.lmax < 2 ^ 16) (hv : nlen v ≤ s.cfg.lmax) {b : BigReg}
    (hb : b = { regs.get r with sign := (enc s.cfg.lmax v).sign, len := (enc s.cfg.lmax v).len }) :
    b.wf s.cfg.lmax = true ∧ b.val = v := by
  have hsign := congrArg BigReg.sign hb
  have hlen := congrArg BigReg.len hb
  have hcell : ∀ i < (enc s.cfg.lmax v).len.toNat, b.cell i = (enc s.cfg.lmax v).cell i := by
    intro i hi
    rw [enc_len_toNat s.cfg.lmax v (by omega)] at hi
    rw [hb]
    exact h.cells i hi
  refine ⟨BigReg.wf_of_agree (enc_wf s.cfg.lmax v hl hv) hsign hlen hcell, ?_⟩
  obtain ⟨_, _, hval⟩ := valueIsSignedLimbSum (enc s.cfg.lmax v)
  rw [hval b hsign hlen hcell, enc_val s.cfg.lmax v hl hv]

theorem loadTurns_length (cfg : Config) (r : Reg) (v : Int) :
    (loadTurns cfg r v).length = ((List.range (nlen v)).flatMap (loadLimb cfg v)).length + 1 + 1 := by
  rw [loadTurns, List.length_cons, List.length_append, List.length_singleton]

/-- Settles O56: LREG, then the limbs, then LMETA, after which B[r] has the sign, the len and the limbs of the encoding of v. -/
theorem loadProcedureStoresValue : Obligations.LoadProcedureStoresValue := by
  intro s r v rest h hp hv hagenda
  have hl := Config.lmax_lt_of_wellFormed h.config
  have hlen : (enc s.cfg.lmax v).len.toNat ≤ s.cfg.lmax := (enc_len_toNat s.cfg.lmax v (by omega)).trans_le hv
  have hfirst : step s = .next (s.loading r s.regs s.lidx ((List.range (nlen v)).flatMap (loadLimb s.cfg v)
      ++ [writeTurn s.cfg 0x24 (enc s.cfg.lmax v).metaWord] ++ rest)) :=
    (step_writeTurn hagenda (by decide) rfl).trans (congrArg Host.Outcome.next (writeLreg_ofNat r _))
  rw [List.append_assoc] at hfirst
  obtain ⟨regs, lidx, hlimbs, hloaded⟩ := (LimbsLoaded.of_start h r v).run_loadLimbs hp h.config (nlen v) hv s.lidx
    ([writeTurn s.cfg 0x24 (enc s.cfg.lmax v).metaWord] ++ rest)
  have hlast := SafeRun.of_step (s.step_loading_lmeta r regs lidx rest hp hlen)
  have hreg := get_set_same regs r
    { regs.get r with sign := (enc s.cfg.lmax v).sign, len := (enc s.cfg.lmax v).len }
  obtain ⟨hwf, hval⟩ := hloaded.holds hl hv hreg
  have hrun := safeRun_succ hfirst (hlimbs.append hlast)
  rw [← loadTurns_length s.cfg r v] at hrun
  exact ⟨_, hrun, hwf, hval, fun q hq => (get_set_of_ne regs _ hq).trans (hloaded.others q hq), rfl⟩

end Sys2Proof.Machine
end
